-- ==== Sys2Proof/Word.lean ====
section
/-! DEFINITION. The value types of the khopesh CORE: bytes of the program buffer, 32-bit words, register indices. -/

namespace Sys2Proof

/-- One byte of the program buffer, the addressable unit (20_memory.md R40). -/
abbrev Byte := BitVec 8

/-- The pattern held by a general register, by `remainder` and by `pc`: XLEN = REM_BITS = PCW = 32 (00_scope.md R4). -/
abbrev Word := BitVec 32

/-- LOAD's immediate: IMM_BITS = 16 (00_scope.md R4). -/
abbrev Imm := BitVec 16

/-- The index of a general register: NREG = 32, indices 0..31 (00_scope.md R4, 10_state.md R21). -/
abbrev RegIdx := Fin 32

end Sys2Proof
end

