-- ==== Sys2Proof/Config.lean ====
section
/-! DEFINITION. The parameters of 00_scope.md R4 that are numbers the machine uses, and the values this model names for
the two reset values the spec leaves open. (The widths of R4 are the types of Word.lean; OPMAP stands in Decode.lean.) -/

namespace Sys2Proof.Config

/-- PROG_LEN_MAX: the greatest legal program length `L`, in bytes (00_scope.md R4). -/
def progLenMax : Nat := 2147483648

/-- DESIGN CHOICE (notes/assumptions/1.md, unsafe): the value `remainder` holds in `State.reset`. The spec leaves
REMAINDER_RESET open (10_state.md R32); the reset event of Machine/HostPort.lean takes it as a free input. -/
def remainderReset : Word := 0

/-- DESIGN CHOICE (notes/assumptions/2.md, unsafe): the value `equal_flag` holds in `State.reset`. The spec leaves
EQUAL_FLAG_RESET open (10_state.md R32); the reset event of Machine/HostPort.lean takes it as a free input. -/
def equalFlagReset : Bool := false

end Sys2Proof.Config
end

