-- ==== Sys2Proof/Syntax.lean ====
section
/-! DEFINITION. The decoder's 18-way tag (40_decoder.md R82) and the instructions, one constructor per row of
spec/opcode_table.json. -/

namespace Sys2Proof

/-- The result of the decoder block: 17 named operations and the one illegal tag, with no payload (40_decoder.md R82). -/
inductive Tag where
  | load | add | sub | mul | div | hlt | jmp | jmpf | jmpb
  | eq | neq | gt | lt | gte | lte | jmpe | jneq
  /-- the illegal tag IGL, for every byte 17..255 -/
  | igl
  deriving DecidableEq, Repr

/-- The instructions, with their operand bytes as they stand in the instruction stream (30_encoding.md R61, R63).
A register field is a whole byte, of which only 0..31 names a register (R64); whether it does is checked when the
instruction runs (41_executor_cycle.md R106). DESIGN CHOICE (notes/assumptions/12.md): bytes the hardware ignores, the
padding byte and the illegal byte, are kept here so that an encoder can give them back. -/
inductive Instr where
  /-- LOAD rd, imm (42_load.md R130) -/
  | load (rd : Byte) (imm : Imm)
  /-- ADD rs1, rs2 -> rd (43_arithmetic.md R136) -/
  | add (rs1 rs2 rd : Byte)
  /-- SUB rs1, rs2 -> rd (43_arithmetic.md R137) -/
  | sub (rs1 rs2 rd : Byte)
  /-- MUL rs1, rs2 -> rd (43_arithmetic.md R138) -/
  | mul (rs1 rs2 rd : Byte)
  /-- DIV rs1, rs2 -> rd (43_arithmetic.md R139) -/
  | div (rs1 rs2 rd : Byte)
  /-- HLT (44_halt_illegal.md R150) -/
  | hlt
  /-- JMP rt (45_jumps.md R156) -/
  | jmp (rt : Byte)
  /-- JMPF rt (45_jumps.md R157) -/
  | jmpf (rt : Byte)
  /-- JMPB rt (45_jumps.md R158) -/
  | jmpb (rt : Byte)
  /-- EQ ra, rb with its ignored padding byte (46_compare.md R166, 30_encoding.md R66) -/
  | eq (ra rb pad : Byte)
  /-- NEQ ra, rb with its ignored padding byte (46_compare.md R167, 30_encoding.md R66) -/
  | neq (ra rb pad : Byte)
  /-- GT ra, rb (46_compare.md R168) -/
  | gt (ra rb : Byte)
  /-- LT ra, rb (46_compare.md R169) -/
  | lt (ra rb : Byte)
  /-- GTE ra, rb (46_compare.md R170) -/
  | gte (ra rb : Byte)
  /-- LTE ra, rb (46_compare.md R171) -/
  | lte (ra rb : Byte)
  /-- JMPE rt (47_cond_jumps.md R180) -/
  | jmpe (rt : Byte)
  /-- JNEQ rt (47_cond_jumps.md R181) -/
  | jneq (rt : Byte)
  /-- an illegal opcode byte (44_halt_illegal.md R151); the byte is kept so that an encoder can give it back -/
  | igl (byte : Byte)
  deriving DecidableEq, Repr

/-- The tag under which an instruction is dispatched (41_executor_cycle.md R107). -/
def Instr.tag : Instr → Tag
  | .load _ _ => .load
  | .add _ _ _ => .add
  | .sub _ _ _ => .sub
  | .mul _ _ _ => .mul
  | .div _ _ _ => .div
  | .hlt => .hlt
  | .jmp _ => .jmp
  | .jmpf _ => .jmpf
  | .jmpb _ => .jmpb
  | .eq _ _ _ => .eq
  | .neq _ _ _ => .neq
  | .gt _ _ => .gt
  | .lt _ _ => .lt
  | .gte _ _ => .gte
  | .lte _ _ => .lte
  | .jmpe _ => .jmpe
  | .jneq _ => .jneq
  | .igl _ => .igl

end Sys2Proof
end

