-- ==== Sys2Proof/WellFormed.lean ====
section
/-! DEFINITION. Which instruction terms stand for bytes at all (`encodable`), and which of those name only registers that
exist (`wellFormed`). -/

namespace Sys2Proof

/-- The operand bytes the instruction's format uses as register indices, in byte order (30_encoding.md R61,
41_executor_cycle.md R106). LOAD's immediate and the padding byte of EQ and NEQ are not among them. -/
def Instr.regFields : Instr → List Byte
  | .load rd _ => [rd]
  | .add rs1 rs2 rd => [rs1, rs2, rd]
  | .sub rs1 rs2 rd => [rs1, rs2, rd]
  | .mul rs1 rs2 rd => [rs1, rs2, rd]
  | .div rs1 rs2 rd => [rs1, rs2, rd]
  | .hlt => []
  | .jmp rt => [rt]
  | .jmpf rt => [rt]
  | .jmpb rt => [rt]
  | .eq ra rb _ => [ra, rb]
  | .neq ra rb _ => [ra, rb]
  | .gt ra rb => [ra, rb]
  | .lt ra rb => [ra, rb]
  | .gte ra rb => [ra, rb]
  | .lte ra rb => [ra, rb]
  | .jmpe rt => [rt]
  | .jneq rt => [rt]
  | .igl _ => []

/-- The term stands for bytes of the instruction stream: an illegal opcode byte is one of 17..255 (30_encoding.md R67).
Every other operand may hold any value of its width. -/
def Instr.encodable : Instr → Bool
  | .igl byte => decide (17 ≤ byte.toNat)
  | _ => true

/-- Every register-index field names a register, 0..31 (30_encoding.md R64). -/
def Instr.regsInRange (i : Instr) : Bool :=
  i.regFields.all fun f => decide (f.toNat < 32)

/-- Encodable, and no register index out of range: the instruction raises no `RegisterIndexOutOfRange`. -/
def Instr.wellFormed (i : Instr) : Bool :=
  i.encodable && i.regsInRange

end Sys2Proof
end

