-- ==== Sys2Proof/Decode.lean ====
section
/-! DEFINITION. The decoder block (40_decoder.md) in its three forms, the length table, the decoder of the instruction
stream and the encoder (30_encoding.md). -/

namespace Sys2Proof

/-- OPMAP: the opcode byte of each named operation (00_scope.md R4, 30_encoding.md R63). The one place that fixes them;
thirteen of them rest on the order of the source's table alone (DEDUCED by the spec, notes/assumptions/14.md). -/
def opmap : List (Nat × Tag) :=
  [(0, .load), (1, .add), (2, .sub), (3, .mul), (4, .div), (5, .hlt), (6, .jmp), (7, .jmpf), (8, .jmpb),
   (9, .eq), (10, .neq), (11, .gt), (12, .lt), (13, .gte), (14, .lte), (15, .jmpe), (16, .jneq)]

/-- The decoder block's function `decode : Byte -> Tag`: total, every byte outside OPMAP is IGL (40_decoder.md R80,
R83). -/
def decodeTag (b : Byte) : Tag :=
  (opmap.lookup b.toNat).getD .igl

/-- The number OPMAP gives a named tag; none for IGL, which has no canonical byte (40_decoder.md R87). -/
def opcodeNumber (t : Tag) : Option Nat :=
  (opmap.find? fun p => decide (p.2 = t)).map Prod.fst

/-- The 5-bit code on the decoder's `tag_o`: a named tag's opcode byte, and 17 for IGL (40_decoder.md R81, R83). -/
def tagCode (t : Tag) : BitVec 5 :=
  BitVec.ofNat 5 ((opcodeNumber t).getD 17)

/-- The contents of the decoder's ROM form: words 0x00 to 0x10 hold their own address, the other 239 hold 0x11
(40_decoder.md R84). -/
def decoderRom : List (BitVec 5) :=
  (List.range 17).map (BitVec.ofNat 5) ++ List.replicate 239 0x11#5

/-- The gate-level form of the decoder (40_decoder.md R85). -/
def decoderGates (b : Byte) : BitVec 5 :=
  let illegal := decide (b.extractLsb' 5 3 ≠ 0#3) || (b.getLsbD 4 && decide (b.extractLsb' 0 4 ≠ 0#4))
  if illegal then 0b10001#5 else b.extractLsb' 0 5

/-- `oplen`: the number of operand bytes after the opcode byte (30_encoding.md R62). -/
def oplen : Tag → Nat
  | .load => 3
  | .add => 3
  | .sub => 3
  | .mul => 3
  | .div => 3
  | .eq => 3
  | .neq => 3
  | .gt => 2
  | .lt => 2
  | .gte => 2
  | .lte => 2
  | .jmp => 1
  | .jmpf => 1
  | .jmpb => 1
  | .jmpe => 1
  | .jneq => 1
  | .hlt => 0
  | .igl => 0

/-- `imm = {b2, b3}`: LOAD's immediate, high byte first, `uint(imm) = 256 * b2 + b3` (20_memory.md R43,
30_encoding.md R65). -/
def immOfBytes (hi lo : Byte) : Imm :=
  BitVec.ofNat 16 (256 * hi.toNat + lo.toNat)

/-- imm[15:8], the byte of the immediate that stands first (30_encoding.md R61). -/
def immHigh (imm : Imm) : Byte :=
  BitVec.ofNat 8 (imm.toNat / 256)

/-- imm[7:0], the byte of the immediate that stands second (30_encoding.md R61). -/
def immLow (imm : Imm) : Byte :=
  BitVec.ofNat 8 imm.toNat

/-- The instruction with opcode byte `b0` of tag `t` and operand bytes `b1`, `b2`, `b3`, of which it takes the first
`oplen t`, laid out as the tag's format says (30_encoding.md R61). -/
def instrOf (t : Tag) (b0 b1 b2 b3 : Byte) : Instr :=
  match t with
  | .load => .load b1 (immOfBytes b2 b3)
  | .add => .add b1 b2 b3
  | .sub => .sub b1 b2 b3
  | .mul => .mul b1 b2 b3
  | .div => .div b1 b2 b3
  | .hlt => .hlt
  | .jmp => .jmp b1
  | .jmpf => .jmpf b1
  | .jmpb => .jmpb b1
  | .eq => .eq b1 b2 b3
  | .neq => .neq b1 b2 b3
  | .gt => .gt b1 b2
  | .lt => .lt b1 b2
  | .gte => .gte b1 b2
  | .lte => .lte b1 b2
  | .jmpe => .jmpe b1
  | .jneq => .jneq b1
  | .igl => .igl b0

/-- Why a byte sequence holds no instruction at its start. -/
inductive DecodeError where
  /-- the bytes end before the instruction does (41_executor_cycle.md R105) -/
  | truncatedInstruction
  deriving DecidableEq, Repr

/-- The instruction at the start of a byte sequence, and the bytes after it. The opcode byte alone decides which
instruction it is and how long it is (30_encoding.md R60); every opcode byte is decoded, so the only rejection is a
sequence that is too short. -/
def decode : List Byte → Except DecodeError (Instr × List Byte)
  | [] => .error .truncatedInstruction
  | b0 :: rest =>
    if rest.length < oplen (decodeTag b0) then .error .truncatedInstruction
    else
      .ok (instrOf (decodeTag b0) b0 (rest.getD 0 0) (rest.getD 1 0) (rest.getD 2 0),
        rest.drop (oplen (decodeTag b0)))

/-- `enc(t)`: the opcode byte of a named tag (40_decoder.md R87). IGL has none, and the encoder does not ask for one. -/
def opcodeByte (t : Tag) : Byte :=
  BitVec.ofNat 8 ((opcodeNumber t).getD 17)

/-- The bytes of an instruction, opcode byte first (30_encoding.md R61, R71). -/
def encode : Instr → List Byte
  | .load rd imm => [opcodeByte .load, rd, immHigh imm, immLow imm]
  | .add rs1 rs2 rd => [opcodeByte .add, rs1, rs2, rd]
  | .sub rs1 rs2 rd => [opcodeByte .sub, rs1, rs2, rd]
  | .mul rs1 rs2 rd => [opcodeByte .mul, rs1, rs2, rd]
  | .div rs1 rs2 rd => [opcodeByte .div, rs1, rs2, rd]
  | .hlt => [opcodeByte .hlt]
  | .jmp rt => [opcodeByte .jmp, rt]
  | .jmpf rt => [opcodeByte .jmpf, rt]
  | .jmpb rt => [opcodeByte .jmpb, rt]
  | .eq ra rb pad => [opcodeByte .eq, ra, rb, pad]
  | .neq ra rb pad => [opcodeByte .neq, ra, rb, pad]
  | .gt ra rb => [opcodeByte .gt, ra, rb]
  | .lt ra rb => [opcodeByte .lt, ra, rb]
  | .gte ra rb => [opcodeByte .gte, ra, rb]
  | .lte ra rb => [opcodeByte .lte, ra, rb]
  | .jmpe rt => [opcodeByte .jmpe, rt]
  | .jneq rt => [opcodeByte .jneq, rt]
  | .igl byte => [byte]

/-- The four bytes (the longest instruction) whose bits are `w`, the first byte in bits 7..0, every bit from `nbits` up
taken as 0. -/
def tableWordBytes (nbits w : Nat) : List Byte :=
  (List.range 4).map fun k => BitVec.ofNat 8 (w % 2 ^ nbits / 2 ^ (8 * k))

/-- The instruction the decoder reads from a word numbered as spec/opcode_table.json numbers its bits. -/
def decodeTableWord (nbits w : Nat) : Option Instr :=
  match decode (tableWordBytes nbits w) with
  | .ok (i, _) => some i
  | .error _ => none

end Sys2Proof
end

