-- ==== Sys2Proof/Machine/State.lean ====
section
/-! DEFINITION. The state of the executor (10_state.md R20), with the program buffer it reads (20_memory.md R40) and two
records of the model's own; the reasons a step or a host action stops; the state after reset. -/

namespace Sys2Proof.Machine

/-- The executor's two macro-states (10_state.md R28, 41_executor_cycle.md R113). -/
inductive RunState where
  | running
  | halted
  deriving DecidableEq, Repr

/-- The nine outcomes of a step (00_scope.md R8, 60_exceptions.md R190). -/
inductive Outcome where
  /-- Continue: the only outcome that is not terminal -/
  | continues
  /-- Halted: a HLT instruction was executed -/
  | halted
  /-- IllegalOpcode (alias UnknownOpcode): an opcode byte 17..255 was met -/
  | illegalOpcode
  /-- EndOfProgram: the step began with `pc >= L` -/
  | endOfProgram
  | registerIndexOutOfRange
  | divisionByZero
  | programCounterUnderflow
  | truncatedInstruction
  | negativeJumpOperand
  deriving DecidableEq, Repr

/-- The two diagnostic events (41_executor_cycle.md R114). -/
inductive Diagnostic where
  /-- code 0: HLT encountered -/
  | hltEncountered
  /-- code 1: illegal opcode encountered -/
  | illegalOpcodeEncountered
  deriving DecidableEq, Repr

/-- The program buffer's contents, as (address, byte) pairs in canonical form: addresses strictly rising and no entry
equal to `Memory.unlisted` of Machine/Ops.lean. -/
abbrev Memory := List Host.Cell

/-- The state. -/
structure State where
  /-- `x[0..31]`, the general registers (10_state.md R21, R22) -/
  x : Vector Word 32
  /-- the program counter (10_state.md R23) -/
  pc : Word
  /-- `remainder`, written by DIV only (10_state.md R27) -/
  remainder : Word
  /-- `equal_flag`, written by the six comparisons only (10_state.md R26) -/
  equalFlag : Bool
  /-- `run_state` (10_state.md R28) -/
  runState : RunState
  /-- `outcome`, the outcome of the most recent step (10_state.md R29) -/
  outcome : Outcome
  /-- `prog`, the program buffer: read by fetch, written by no step (20_memory.md R40, R42) -/
  prog : Memory
  /-- `L`, the program length in bytes (20_memory.md R40, R46); DESIGN CHOICE (notes/assumptions/8.md): a number of any
  size, held to PROG_LEN_MAX by the invariant of Safety.lean -/
  progLen : Nat
  /-- the host's launch window is open: reset has happened and no step has been commanded since
  (41_executor_cycle.md R116; DEDUCED, notes/assumptions/6.md) -/
  launchWindow : Bool
  /-- the diagnostic events emitted since reset, oldest first (41_executor_cycle.md R114; DESIGN CHOICE,
  notes/assumptions/7.md) -/
  diagnostics : List Diagnostic
  deriving DecidableEq, Repr

/-- Why a step stops with no next state. The five faults of 60_exceptions.md are not here: the machine takes them, and
their entry is a next state (R200). -/
inductive Fault where
  /-- Raised by `Fetch8` (Machine/Ops.lean) for an address at or above `L`, where nothing exists (20_memory.md R41, R46).
  The spec says that this read is never performed, and the step's own checks keep it from happening
  (notes/assumptions/11.md). Safe. -/
  | noSuchAddress
  deriving DecidableEq, Repr

/-- What the model says nothing about. -/
inductive Refusal where
  /-- Answered by an arm of `exec` for an instruction that has no meaning yet. Safe. -/
  | notModelled (mnemonic : String)
  /-- Answered by the host's load of a program longer than PROG_LEN_MAX (00_scope.md R4, R223). Safe. -/
  | programTooLong
  /-- Answered by the host's load of a program outside the launch window, which the spec forbids
  (20_memory.md R51, 41_executor_cycle.md R116; notes/assumptions/9.md). Safe. -/
  | programChangedAfterLaunch
  deriving DecidableEq, Repr

/-- The machine right after reset, with no program supplied yet (10_state.md R32, 70_reset_and_hazards.md R220;
DESIGN CHOICE for the values the spec leaves open: notes/assumptions/1.md, 2.md, 4.md). -/
def State.reset : State where
  x := Vector.replicate 32 0
  pc := 0
  remainder := Config.remainderReset
  equalFlag := Config.equalFlagReset
  runState := .running
  outcome := .continues
  prog := []
  progLen := 0
  launchWindow := true
  diagnostics := []

end Sys2Proof.Machine
end

