-- ==== Sys2Proof/Machine/Ops.lean ====
section
/-! DEFINITION. The named operations over memory and registers, the end of a step (10_state.md, 20_memory.md,
41_executor_cycle.md R108, R109) and taking a fault (60_exceptions.md R200). -/

namespace Sys2Proof.Machine

/-- What an address of the buffer that the list does not name holds: a zero byte (DESIGN CHOICE,
notes/assumptions/3.md). -/
def Memory.unlisted : Byte := 0

/-- The byte the buffer holds at an address. -/
def Memory.read : Memory → Nat → Byte
  | [], _ => Memory.unlisted
  | (c, v) :: m, a => if c = a then v else Memory.read m a

/-- The buffer with one byte replaced, in canonical form again. No step does this (20_memory.md R42); the host's load
does. -/
def Memory.write : Memory → Nat → Byte → Memory
  | [], a, b => if b = Memory.unlisted then [] else [(a, b)]
  | (c, v) :: m, a, b =>
    if a < c then
      if b = Memory.unlisted then (c, v) :: m else (a, b) :: (c, v) :: m
    else if a = c then
      if b = Memory.unlisted then m else (a, b) :: m
    else (c, v) :: Memory.write m a b

/-- The buffer with the given bytes at an address and the addresses after it. -/
def Memory.writeBytes (m : Memory) (a : Nat) : List Byte → Memory
  | [] => m
  | b :: bs => Memory.writeBytes (m.write a b) (a + 1) bs

/-- Canonical form from address `lo` up: addresses strictly rising, and no listed byte equal to the unlisted one. -/
def Memory.wfFrom (lo : Nat) : Memory → Bool
  | [] => true
  | (c, v) :: m => decide (lo ≤ c) && decide (v ≠ Memory.unlisted) && Memory.wfFrom (c + 1) m

/-- The canonical form. -/
def Memory.wf (m : Memory) : Bool :=
  Memory.wfFrom 0 m

/-- Nothing is listed at or above an address. -/
def Memory.below (m : Memory) (hi : Nat) : Bool :=
  m.all fun cell => decide (cell.1 < hi)

/-- `Fetch8(a)`: the byte at address `a` of the program buffer, defined below `L` (20_memory.md R41). -/
def State.fetch8 (s : State) (a : Nat) : Except Fault Byte :=
  if a < s.progLen then .ok (s.prog.read a) else .error .noSuchAddress

/-- `MemRead(addr, n)`: `n` bytes in ascending address order (20_memory.md R42, R43). -/
def State.memRead (s : State) : Nat → Nat → Except Fault (List Byte)
  | _, 0 => .ok []
  | a, n + 1 =>
    match s.fetch8 a with
    | .error f => .error f
    | .ok b =>
      match State.memRead s (a + 1) n with
      | .error f => .error f
      | .ok bs => .ok (b :: bs)

/-- `x[i]` (00_scope.md R6). No register is hard-wired (10_state.md R22). -/
def State.reg (s : State) (i : RegIdx) : Word :=
  s.x[i]

/-- `x[i] <- v` (00_scope.md R6). -/
def State.setReg (s : State) (i : RegIdx) (v : Word) : State :=
  { s with x := s.x.set i v }

/-- `remainder <- v` (10_state.md R27). -/
def State.setRemainder (s : State) (v : Word) : State :=
  { s with remainder := v }

/-- `pc <- t`. The spec computes `t` in unbounded integers and shows that it fits (10_state.md R25); where `L` is beyond
its bound it may not, and `pc` then holds it modulo 2^32 (DESIGN CHOICE, notes/assumptions/8.md). -/
def State.setPc (s : State) (t : Nat) : State :=
  { s with pc := BitVec.ofNat 32 t }

/-- `pn`: the address of the byte after an instruction of tag `t` that stands at `pc` (00_scope.md R9). -/
abbrev State.pn (s : State) (t : Tag) : Nat :=
  s.pc.toNat + 1 + oplen t

/-- The end of a step that goes on: `pc <- t`, and the step reports `Continue` (41_executor_cycle.md R108, R109). -/
def State.complete (s : State) (t : Nat) : State :=
  { s.setPc t with outcome := .continues }

/-- The end of a run: `run_state <- Halted`, `outcome <- o`, and nothing else. -/
def State.endRun (s : State) (o : Outcome) : State :=
  { s with runState := .halted, outcome := o }

/-- `terminate o`: the step ends with a normal terminal outcome (00_scope.md R8). -/
def State.terminate (s : State) (o : Outcome) : State :=
  s.endRun o

/-- `raise f`: fault entry. The fault is latched, the run ends, and nothing else changes: `pc` stays at the faulting
instruction (60_exceptions.md R200). There is no handler, no saved state and no return from it (R201, R202). -/
def State.raise (s : State) (f : Outcome) : State :=
  s.endRun f

/-- One diagnostic event (41_executor_cycle.md R114). -/
def State.emit (s : State) (d : Diagnostic) : State :=
  { s with diagnostics := s.diagnostics ++ [d] }

/-- The first step command closes the launch window (41_executor_cycle.md R116). -/
def State.closeLaunchWindow (s : State) : State :=
  { s with launchWindow := false }

end Sys2Proof.Machine
end

