-- ==== Sys2Proof/Machine/Operands.lean ====
section
/-! DEFINITION. The operand forms: register-index operands with their check (41_executor_cycle.md R106), the signed
reading of a register, the extension and wrapping of values (00_scope.md R5), the operand of a jump (45_jumps.md R155). -/

namespace Sys2Proof.Machine

/-- `sint(v)`: the signed reading of a 32-bit pattern (00_scope.md R5). -/
abbrev sint (v : Word) : Int :=
  v.toInt

/-- `wrap32(z)`: the 32-bit pattern of an integer reduced modulo 2^32 (00_scope.md R5). -/
def wrap32 (z : Int) : Word :=
  BitVec.ofInt 32 z

/-- `zext_32` of a 16-bit immediate (00_scope.md R5, 30_encoding.md R65). -/
def zext32 (imm : Imm) : Word :=
  imm.setWidth 32

/-- `sint(x[i])`. -/
abbrev State.sreg (s : State) (i : RegIdx) : Int :=
  sint (s.reg i)

/-- The register an operand byte names, if it names one (30_encoding.md R64). -/
def regIndex? (b : Byte) : Option RegIdx :=
  if h : b.toNat < 32 then some ⟨b.toNat, h⟩ else none

/-- One register-index operand: the instruction goes on with the register it names, or raises
`RegisterIndexOutOfRange` (41_executor_cycle.md R106). -/
def withReg (b : Byte) (s : State) (k : RegIdx → State) : State :=
  match regIndex? b with
  | some i => k i
  | none => s.raise .registerIndexOutOfRange

/-- Two register-index operands, checked in byte order (41_executor_cycle.md R106). -/
def withReg2 (b1 b2 : Byte) (s : State) (k : RegIdx → RegIdx → State) : State :=
  withReg b1 s fun i => withReg b2 s fun j => k i j

/-- Three register-index operands, checked in byte order (41_executor_cycle.md R106). -/
def withReg3 (b1 b2 b3 : Byte) (s : State) (k : RegIdx → RegIdx → RegIdx → State) : State :=
  withReg b1 s fun i => withReg b2 s fun j => withReg b3 s fun d => k i j d

/-- The register value of a jump, as a target or a distance: a negative one raises `NegativeJumpOperand`
(45_jumps.md R155). -/
def withJumpOperand (i : RegIdx) (s : State) (k : Nat → State) : State :=
  if s.sreg i < 0 then s.raise .negativeJumpOperand else k (s.sreg i).toNat

end Sys2Proof.Machine
end

