-- ==== Sys2Proof/Machine/Flags.lean ====
section
/-! DEFINITION. `equal_flag` and how a comparison writes it (46_compare.md R165), the numeric codes of the outcomes
(60_exceptions.md R191) and the host's STATUS word (10_state.md R30). -/

namespace Sys2Proof.Machine

/-- `equal_flag <- b`: overwritten whatever it held (10_state.md R26). -/
def State.setEqualFlag (s : State) (b : Bool) : State :=
  { s with equalFlag := b }

/-- What the six comparisons share: the relation `rel` of the two registers' signed values goes into `equal_flag`, `pc`
moves past the instruction of tag `t`, nothing else changes (46_compare.md R165). -/
def compareWith (rel : Int → Int → Bool) (t : Tag) (ra rb : Byte) (s : State) : State :=
  withReg2 ra rb s fun i j =>
    (s.setEqualFlag (rel (s.sreg i) (s.sreg j))).complete (s.pn t)

/-- The numeric code of an outcome, as on `outcome_o` (60_exceptions.md R191). -/
def outcomeCode : Outcome → BitVec 4
  | .continues => 0
  | .halted => 1
  | .illegalOpcode => 2
  | .endOfProgram => 3
  | .registerIndexOutOfRange => 4
  | .divisionByZero => 5
  | .programCounterUnderflow => 6
  | .truncatedInstruction => 7
  | .negativeJumpOperand => 8

/-- The bit of `run_state`, as on `halted_o` (10_state.md R30). -/
def runStateBit : RunState → BitVec 1
  | .running => 0
  | .halted => 1

/-- The code of a diagnostic event, as on `diag_code_o` (41_executor_cycle.md R114). -/
def diagnosticCode : Diagnostic → BitVec 1
  | .hltEncountered => 0
  | .illegalOpcodeEncountered => 1

/-- STATUS: bit 4 is `run_state`, bits 3..0 the code of `outcome` (10_state.md R30). -/
def State.status (s : State) : BitVec 5 :=
  runStateBit s.runState ++ outcomeCode s.outcome

end Sys2Proof.Machine
end

