-- ==== Sys2Proof/Machine/Arith.lean ====
section
/-! DEFINITION. Integer arithmetic: ADD, SUB, MUL, DIV (43_arithmetic.md). -/

namespace Sys2Proof.Machine

/-- What ADD, SUB and MUL share: the exact result `f a b` on the signed sources, wrapped, goes to the destination
(43_arithmetic.md R135, R140). -/
def arithWith (f : Int → Int → Int) (t : Tag) (rs1 rs2 rd : Byte) (s : State) : State :=
  withReg3 rs1 rs2 rd s fun i j d =>
    (s.setReg d (wrap32 (f (s.sreg i) (s.sreg j)))).complete (s.pn t)

/-- The quotient truncated toward zero (43_arithmetic.md R139). -/
def truncQuot (a b : Int) : Int :=
  a.tdiv b

/-- The remainder that goes with it, `r = a - b * q` (43_arithmetic.md R139). -/
def truncRem (a b : Int) : Int :=
  a - b * truncQuot a b

/-- ADD rs1, rs2 -> rd (43_arithmetic.md R136). -/
def execAdd (rs1 rs2 rd : Byte) (s : State) : Host.Outcome State Fault Refusal :=
  .next (arithWith (fun a b => a + b) .add rs1 rs2 rd s)

/-- SUB rs1, rs2 -> rd (43_arithmetic.md R137). -/
def execSub (rs1 rs2 rd : Byte) (s : State) : Host.Outcome State Fault Refusal :=
  .next (arithWith (fun a b => a - b) .sub rs1 rs2 rd s)

/-- MUL rs1, rs2 -> rd (43_arithmetic.md R138). -/
def execMul (rs1 rs2 rd : Byte) (s : State) : Host.Outcome State Fault Refusal :=
  .next (arithWith (fun a b => a * b) .mul rs1 rs2 rd s)

/-- DIV rs1, rs2 -> rd (43_arithmetic.md R139). -/
def execDiv (rs1 rs2 rd : Byte) (s : State) : Host.Outcome State Fault Refusal :=
  .next (withReg3 rs1 rs2 rd s fun i j d =>
    if s.sreg j = 0 then s.raise .divisionByZero
    else
      ((s.setReg d (wrap32 (truncQuot (s.sreg i) (s.sreg j)))).setRemainder
        (wrap32 (truncRem (s.sreg i) (s.sreg j)))).complete (s.pn .div))

end Sys2Proof.Machine
end

