-- ==== Sys2Proof/Machine/Compare.lean ====
section
/-! DEFINITION. The comparisons: EQ, NEQ, GT, LT, GTE, LTE (46_compare.md). -/

namespace Sys2Proof.Machine

/-- EQ ra, rb; the padding byte is ignored (46_compare.md R166, 30_encoding.md R66). -/
def execEq (ra rb _pad : Byte) (s : State) : Host.Outcome State Fault Refusal :=
  .next (compareWith (fun a c => decide (a = c)) .eq ra rb s)

/-- NEQ ra, rb; the padding byte is ignored (46_compare.md R167, 30_encoding.md R66). -/
def execNeq (ra rb _pad : Byte) (s : State) : Host.Outcome State Fault Refusal :=
  .next (compareWith (fun a c => decide (a ≠ c)) .neq ra rb s)

/-- GT ra, rb (46_compare.md R168). -/
def execGt (ra rb : Byte) (s : State) : Host.Outcome State Fault Refusal :=
  .next (compareWith (fun a c => decide (a > c)) .gt ra rb s)

/-- LT ra, rb (46_compare.md R169). -/
def execLt (ra rb : Byte) (s : State) : Host.Outcome State Fault Refusal :=
  .next (compareWith (fun a c => decide (a < c)) .lt ra rb s)

/-- GTE ra, rb (46_compare.md R170). -/
def execGte (ra rb : Byte) (s : State) : Host.Outcome State Fault Refusal :=
  .next (compareWith (fun a c => decide (a ≥ c)) .gte ra rb s)

/-- LTE ra, rb (46_compare.md R171). -/
def execLte (ra rb : Byte) (s : State) : Host.Outcome State Fault Refusal :=
  .next (compareWith (fun a c => decide (a ≤ c)) .lte ra rb s)

end Sys2Proof.Machine
end

