-- ==== Sys2Proof/Machine/CondJumps.lean ====
section
/-! DEFINITION. The conditional jumps: JMPE, JNEQ (47_cond_jumps.md). -/

namespace Sys2Proof.Machine

/-- What JMPE and JNEQ share: the register index is checked whether or not the jump is taken; taken, it is an absolute
jump; not taken, `pc` moves past the instruction and the register's value is not examined (47_cond_jumps.md R180). -/
def condJump (taken : Bool) (t : Tag) (rt : Byte) (s : State) : State :=
  withReg rt s fun i =>
    if taken then withJumpOperand i s fun v => s.complete v else s.complete (s.pn t)

/-- JMPE rt: taken when `equal_flag` is set (47_cond_jumps.md R180). -/
def execJmpe (rt : Byte) (s : State) : Host.Outcome State Fault Refusal :=
  .next (condJump s.equalFlag .jmpe rt s)

/-- JNEQ rt: taken when `equal_flag` is clear (47_cond_jumps.md R181). -/
def execJneq (rt : Byte) (s : State) : Host.Outcome State Fault Refusal :=
  .next (condJump (!s.equalFlag) .jneq rt s)

end Sys2Proof.Machine
end

