-- ==== Sys2Proof/Machine/HaltIllegal.lean ====
section
/-! DEFINITION. The two instructions that end a run normally: HLT and the illegal opcode bytes (44_halt_illegal.md). -/

namespace Sys2Proof.Machine

/-- HLT (44_halt_illegal.md R150). -/
def execHlt (s : State) : Host.Outcome State Fault Refusal :=
  .next (((s.setPc (s.pn .hlt)).emit .hltEncountered).terminate .halted)

/-- An illegal opcode byte; all 239 behave alike (44_halt_illegal.md R151). -/
def execIgl (_byte : Byte) (s : State) : Host.Outcome State Fault Refusal :=
  .next (((s.setPc (s.pn .igl)).emit .illegalOpcodeEncountered).terminate .illegalOpcode)

end Sys2Proof.Machine
end

