-- ==== Sys2Proof/Machine/Jumps.lean ====
section
/-! DEFINITION. The unconditional jumps: JMP, JMPF, JMPB (45_jumps.md). -/

namespace Sys2Proof.Machine

/-- JMP rt: to the absolute address in the register (45_jumps.md R156). -/
def execJmp (rt : Byte) (s : State) : Host.Outcome State Fault Refusal :=
  .next (withReg rt s fun i => withJumpOperand i s fun v => s.complete v)

/-- JMPF rt: forward by the register's value, from the byte after the instruction (45_jumps.md R155, R157). -/
def execJmpf (rt : Byte) (s : State) : Host.Outcome State Fault Refusal :=
  .next (withReg rt s fun i => withJumpOperand i s fun v => s.complete (s.pn .jmpf + v))

/-- JMPB rt: backward by the register's value, from the byte after the instruction; a distance that would take `pc`
below 0 raises `ProgramCounterUnderflow` (45_jumps.md R155, R158). -/
def execJmpb (rt : Byte) (s : State) : Host.Outcome State Fault Refusal :=
  .next (withReg rt s fun i => withJumpOperand i s fun v =>
    if s.pn .jmpb < v then s.raise .programCounterUnderflow else s.complete (s.pn .jmpb - v))

end Sys2Proof.Machine
end

