-- ==== Sys2Proof/Machine/Load.lean ====
section
/-! DEFINITION. The load of an immediate: LOAD (42_load.md). -/

namespace Sys2Proof.Machine

/-- LOAD rd, imm (42_load.md R130). -/
def execLoad (rd : Byte) (imm : Imm) (s : State) : Host.Outcome State Fault Refusal :=
  .next (withReg rd s fun d => (s.setReg d (zext32 imm)).complete (s.pn .load))

end Sys2Proof.Machine
end

