-- ==== Sys2Proof/Machine/Dispatch.lean ====
section
/-! DEFINITION. The dispatch on the decoded instruction, one arm each (41_executor_cycle.md R107). -/

namespace Sys2Proof.Machine

def exec (i : Instr) (s : State) : Host.Outcome State Fault Refusal :=
  match i with
  | .load rd imm => Sys2Proof.Machine.execLoad rd imm s
  | .add rs1 rs2 rd => Sys2Proof.Machine.execAdd rs1 rs2 rd s
  | .sub rs1 rs2 rd => Sys2Proof.Machine.execSub rs1 rs2 rd s
  | .mul rs1 rs2 rd => Sys2Proof.Machine.execMul rs1 rs2 rd s
  | .div rs1 rs2 rd => Sys2Proof.Machine.execDiv rs1 rs2 rd s
  | .hlt => Sys2Proof.Machine.execHlt s
  | .jmp rt => Sys2Proof.Machine.execJmp rt s
  | .jmpf rt => Sys2Proof.Machine.execJmpf rt s
  | .jmpb rt => Sys2Proof.Machine.execJmpb rt s
  | .eq ra rb pad => Sys2Proof.Machine.execEq ra rb pad s
  | .neq ra rb pad => Sys2Proof.Machine.execNeq ra rb pad s
  | .gt ra rb => Sys2Proof.Machine.execGt ra rb s
  | .lt ra rb => Sys2Proof.Machine.execLt ra rb s
  | .gte ra rb => Sys2Proof.Machine.execGte ra rb s
  | .lte ra rb => Sys2Proof.Machine.execLte ra rb s
  | .jmpe rt => Sys2Proof.Machine.execJmpe rt s
  | .jneq rt => Sys2Proof.Machine.execJneq rt s
  | .igl byte => Sys2Proof.Machine.execIgl byte s

end Sys2Proof.Machine
end

