-- ==== Sys2Proof/Machine/Fetch.lean ====
section
/-! DEFINITION. The common part of a step, up to the dispatch (41_executor_cycle.md R102 to R105). -/

namespace Sys2Proof.Machine

/-- What the common part of a step ends with: the step is over, or an instruction is ready to run. -/
inductive Fetched where
  | ended (s : State)
  | ready (i : Instr) (s : State)
  deriving DecidableEq, Repr

/-- Opcode fetch, operand fetch and decode at `pc` (41_executor_cycle.md R104, R105). The operand bytes that exist are
read, all of them when the instruction is complete (20_memory.md R45); the decoder rejects an instruction that lacks
one. -/
def fetchInstr (s : State) : Except Fault (Except DecodeError Instr) :=
  match s.fetch8 s.pc.toNat with
  | .error f => .error f
  | .ok b0 =>
    match s.memRead (s.pc.toNat + 1) (min (oplen (decodeTag b0)) (s.progLen - (s.pc.toNat + 1))) with
    | .error f => .error f
    | .ok operands =>
      match decode (b0 :: operands) with
      | .error e => .ok (.error e)
      | .ok (i, _) => .ok (.ok i)

/-- A step up to the dispatch: a step in `Halted` changes nothing (R102); `pc >= L` is the end of the program (R103); an
instruction that lacks an operand byte raises `TruncatedInstruction` (R105). -/
def fetchPhase (s : State) : Except Fault Fetched :=
  match s.runState with
  | .halted => .ok (.ended s)
  | .running =>
    if s.progLen ≤ s.pc.toNat then .ok (.ended (s.closeLaunchWindow.terminate .endOfProgram))
    else
      match fetchInstr s with
      | .error f => .error f
      | .ok (.error .truncatedInstruction) => .ok (.ended (s.closeLaunchWindow.raise .truncatedInstruction))
      | .ok (.ok i) => .ok (.ready i s.closeLaunchWindow)

/-- The state with the given bytes in the buffer at `pc`, `L` raised where it must be, and the machine running, so that
the next step fetches them. -/
def placeAtPc (s : State) (bytes : List Byte) : State :=
  { s with
    prog := s.prog.writeBytes s.pc.toNat bytes
    progLen := max s.progLen (s.pc.toNat + bytes.length)
    runState := .running
    outcome := .continues }

end Sys2Proof.Machine
end

