-- ==== Sys2Proof/Machine/Step.lean ====
section
/-! DEFINITION. One step (41_executor_cycle.md R102 to R110), and the placing of one instruction where the next step
fetches. -/

namespace Sys2Proof.Machine

/-- One step: one fetch-decode-execute cycle, one atomic transition (00_scope.md R10, 41_executor_cycle.md R110). -/
def step (s : State) : Host.Outcome State Fault Refusal :=
  match Sys2Proof.Machine.fetchPhase s with
  | .error f => .fault f
  | .ok (.ended s') => .next s'
  | .ok (.ready i s') => Sys2Proof.Machine.exec i s'

/-- The state with the instruction whose bits are `w` (numbered as spec/opcode_table.json numbers them) stored where the
next step fetches. It stands for the host's load of a program (notes/assumptions/5.md). -/
def State.withFetchWord (s : State) (nbits w : Nat) : State :=
  Sys2Proof.Machine.placeAtPc s (Sys2Proof.tableWordBytes nbits w)

end Sys2Proof.Machine
end

