-- ==== Sys2Proof/Machine/HostPort.lean ====
section
/-! DEFINITION. What the host can do: reset, supply a program, write and read registers, command one step or a run
(41_executor_cycle.md R111 to R116, 70_reset_and_hazards.md R220 to R223). -/

namespace Sys2Proof.Machine

/-- Reset, at any time, with REMAINDER_RESET and EQUAL_FLAG_RESET as free inputs; the program buffer and `L` are kept, and
the launch window opens (10_state.md R32, 70_reset_and_hazards.md R220, R221). It comes between steps
(notes/assumptions/16.md). -/
def resetEvent (remainderReset : Word) (equalFlagReset : Bool) (s : State) : State :=
  { State.reset with
    remainder := remainderReset
    equalFlag := equalFlagReset
    prog := s.prog
    progLen := s.progLen }

/-- The host supplies the bytes `prog[0..L-1]` and the length `L`, in the launch window only, with `L` at most
PROG_LEN_MAX (41_executor_cycle.md R116, 70_reset_and_hazards.md R223). What the spec forbids is refused
(notes/assumptions/9.md). -/
def hostLoadProgram (bytes : List Byte) (s : State) : Host.Outcome State Fault Refusal :=
  if s.launchWindow = false then .refused .programChangedAfterLaunch
  else if Config.progLenMax < bytes.length then .refused .programTooLong
  else .next { s with prog := Memory.writeBytes [] 0 bytes, progLen := bytes.length }

/-- The host's register write port: honoured in the launch window, ignored outside it (41_executor_cycle.md R101,
R116). -/
def hostWriteReg (idx : BitVec 5) (v : Word) (s : State) : State :=
  if s.launchWindow then s.setReg idx.toFin v else s

/-- The host's register read port (41_executor_cycle.md R101, R115). -/
def hostReadReg (idx : BitVec 5) (s : State) : Word :=
  s.reg idx.toFin

/-- `runOneStep`: exactly one step (41_executor_cycle.md R111). Commanded before a program is supplied it runs the buffer
as it stands (DESIGN CHOICE, notes/assumptions/10.md). -/
def runOneStep (s : State) : Host.Outcome State Fault Refusal :=
  step s

/-- `runToHalt`: step until a step reports a terminal outcome (41_executor_cycle.md R112). The machine's loop has no
bound (70_reset_and_hazards.md R228); `none` says that this many steps did not end the run
(notes/assumptions/15.md). -/
def runToHalt : Nat → State → Option (Host.Outcome State Fault Refusal)
  | 0, _ => none
  | fuel + 1, s =>
    match step s with
    | .next t => if t.outcome = .continues then runToHalt fuel t else some (.next t)
    | .fault f => some (.fault f)
    | .refused r => some (.refused r)

end Sys2Proof.Machine
end

