-- ==== Sys2Proof/Safety.lean ====
section
/-! DEFINITION. The terms claims use: which outcomes are faults and which are terminal, the invariant of the machine, the
launch states from which runs start. -/

namespace Sys2Proof.Machine

/-- The outcomes other than `Continue` (00_scope.md R8). -/
def Outcome.isTerminal (o : Outcome) : Bool :=
  decide (o ≠ .continues)

/-- The five faults (60_exceptions.md R190). -/
def Outcome.isFault : Outcome → Bool
  | .continues => false
  | .halted => false
  | .illegalOpcode => false
  | .endOfProgram => false
  | .registerIndexOutOfRange => true
  | .divisionByZero => true
  | .programCounterUnderflow => true
  | .truncatedInstruction => true
  | .negativeJumpOperand => true

/-- The diagnostic events a run has emitted by the time a step reports this outcome: one for HLT, one for an illegal
byte, none otherwise (41_executor_cycle.md R114). -/
def Outcome.diagnostics : Outcome → List Diagnostic
  | .continues => []
  | .halted => [.hltEncountered]
  | .illegalOpcode => [.illegalOpcodeEncountered]
  | .endOfProgram => []
  | .registerIndexOutOfRange => []
  | .divisionByZero => []
  | .programCounterUnderflow => []
  | .truncatedInstruction => []
  | .negativeJumpOperand => []

/-- `run_state` and `outcome` say the same: `Running` if and only if `Continue` (10_state.md R29). -/
abbrev State.statusAgrees (s : State) : Prop :=
  s.runState = .running ↔ s.outcome = .continues

/-- The program buffer is as the host may supply it: at most PROG_LEN_MAX bytes, in canonical form, nothing at or above
`L` (00_scope.md R4, 20_memory.md R46). -/
abbrev State.programLegal (s : State) : Prop :=
  s.progLen ≤ Config.progLenMax ∧ s.prog.wf = true ∧ s.prog.below s.progLen = true

/-- In the launch window no step has run: the machine is running at address 0 (41_executor_cycle.md R116,
70_reset_and_hazards.md R224; the window as a bit of state is the model's, notes/assumptions/6.md). -/
abbrev State.windowAgrees (s : State) : Prop :=
  s.launchWindow = true → s.runState = .running ∧ s.pc = 0

/-- The invariant of the machine: it holds at reset, and every step and every host action keeps it. -/
abbrev State.Inv (s : State) : Prop :=
  s.statusAgrees ∧ s.programLegal ∧ s.windowAgrees ∧ s.diagnostics = s.outcome.diagnostics

/-- A launch state: `pc` 0, running, `Continue`, any legal program, any registers, any `remainder` and `equal_flag`
(70_reset_and_hazards.md R224); the launch window is open and nothing has been emitted. -/
abbrev State.isLaunch (s : State) : Prop :=
  s.pc = 0 ∧ s.runState = .running ∧ s.outcome = .continues ∧ s.programLegal ∧ s.launchWindow = true ∧
    s.diagnostics = []

/-- The bytes of the program buffer from `pc` to its end, at most four (the longest instruction): what an instruction at
`pc` can consist of. -/
def State.bytesAtPc (s : State) : List Byte :=
  (List.range (min 4 (s.progLen - s.pc.toNat))).map fun k => s.prog.read (s.pc.toNat + k)

/-- How many of an instruction's operand bytes, counted from the opcode byte, are register indices
(30_encoding.md R61). -/
def regFieldCount : Tag → Nat
  | .load => 1
  | .add => 3
  | .sub => 3
  | .mul => 3
  | .div => 3
  | .hlt => 0
  | .jmp => 1
  | .jmpf => 1
  | .jmpb => 1
  | .eq => 2
  | .neq => 2
  | .gt => 2
  | .lt => 2
  | .gte => 2
  | .lte => 2
  | .jmpe => 1
  | .jneq => 1
  | .igl => 0

/-- Whether a jump of this tag would be taken (45_jumps.md R155, 47_cond_jumps.md R180, R181). -/
def jumpTaken (equalFlag : Bool) : Tag → Bool
  | .jmp => true
  | .jmpf => true
  | .jmpb => true
  | .jmpe => equalFlag
  | .jneq => !equalFlag
  | .load => false
  | .add => false
  | .sub => false
  | .mul => false
  | .div => false
  | .hlt => false
  | .eq => false
  | .neq => false
  | .gt => false
  | .lt => false
  | .gte => false
  | .lte => false
  | .igl => false

/-- The byte of the instruction at `pc` that stands `k` bytes after its opcode byte. -/
def State.instrByte (s : State) (k : Nat) : Byte :=
  s.prog.read (s.pc.toNat + k)

/-- The signed value of the register an operand byte names; used only where the byte names one. -/
def State.valueOf (s : State) (b : Byte) : Int :=
  (s.x[b.toNat]?.getD 0).toInt

/-- The table of 60_exceptions.md R199, read off the bytes at `pc`: which outcome a step reports, the first condition
that holds deciding. -/
def outcomeByPriority (s : State) : Outcome :=
  if s.runState = .halted then s.outcome
  else if s.progLen ≤ s.pc.toNat then .endOfProgram
  else if decodeTag (s.instrByte 0) = .hlt then .halted
  else if decodeTag (s.instrByte 0) = .igl then .illegalOpcode
  else if s.progLen < s.pc.toNat + 1 + oplen (decodeTag (s.instrByte 0)) then .truncatedInstruction
  else if ∃ k < regFieldCount (decodeTag (s.instrByte 0)), 32 ≤ (s.instrByte (k + 1)).toNat then
    .registerIndexOutOfRange
  else if decodeTag (s.instrByte 0) = .div ∧ s.valueOf (s.instrByte 2) = 0 then .divisionByZero
  else if jumpTaken s.equalFlag (decodeTag (s.instrByte 0)) = true ∧ s.valueOf (s.instrByte 1) < 0 then
    .negativeJumpOperand
  else if decodeTag (s.instrByte 0) = .jmpb ∧ (s.pc.toNat + 2 : Int) < s.valueOf (s.instrByte 1) then
    .programCounterUnderflow
  else .continues

/-- Where a completed instruction of a tag leaves `pc`, `p0` being its address and `v` the value of the register its
first operand byte names (10_state.md R24). -/
def pcAfterInstr (p0 v : Int) (equalFlag : Bool) : Tag → Int
  | .load => p0 + 4
  | .add => p0 + 4
  | .sub => p0 + 4
  | .mul => p0 + 4
  | .div => p0 + 4
  | .eq => p0 + 4
  | .neq => p0 + 4
  | .gt => p0 + 3
  | .lt => p0 + 3
  | .gte => p0 + 3
  | .lte => p0 + 3
  | .jmp => v
  | .jmpf => p0 + 2 + v
  | .jmpb => p0 + 2 - v
  | .jmpe => if equalFlag then v else p0 + 2
  | .jneq => if equalFlag then p0 + 2 else v
  | .hlt => p0 + 1
  | .igl => p0 + 1

/-- The table of 10_state.md R24, read off the bytes at `pc`: where a step that reports outcome `o` leaves `pc`, computed
in unbounded integers. -/
def pcByTable (s : State) (o : Outcome) : Int :=
  if s.runState = .halted then s.pc.toNat
  else
    match o with
    | .continues =>
      pcAfterInstr s.pc.toNat (s.valueOf (s.instrByte 1)) s.equalFlag (decodeTag (s.instrByte 0))
    | .halted => s.pc.toNat + 1
    | .illegalOpcode => s.pc.toNat + 1
    | .endOfProgram => s.pc.toNat
    | .registerIndexOutOfRange => s.pc.toNat
    | .divisionByZero => s.pc.toNat
    | .programCounterUnderflow => s.pc.toNat
    | .truncatedInstruction => s.pc.toNat
    | .negativeJumpOperand => s.pc.toNat

/-- A step taken while running at an instruction with this opcode byte and this length, whose last byte lies at or
beyond `L`, raises `TruncatedInstruction` and does nothing else (41_executor_cycle.md R105). -/
def TruncatesAt (opcode : Byte) (length : Nat) : Prop :=
  ∀ s : State, s.runState = .running → s.pc.toNat < s.progLen → s.prog.read s.pc.toNat = opcode →
    s.progLen < s.pc.toNat + length →
    step s = .next
      { s with runState := .halted, outcome := .truncatedInstruction, launchWindow := false }

/-- An instruction raises a fault in a state: the fault is latched, the run ends, nothing else changes
(60_exceptions.md R200). -/
def Raises (i : Instr) (s : State) (f : Outcome) : Prop :=
  exec i s = .next { s with runState := .halted, outcome := f }

end Sys2Proof.Machine
end

