-- ==== Sys2Proof/Certificates/Slice0/Obligations.lean ====
section
/-! DEFINITION. The statements about the khopesh CORE, for the provers. -/

open Sys2Proof Sys2Proof.Machine

/-! ## Reset, the invariant, the host -/

/-- 10_state.md R32: after reset all registers and `pc` are 0, the machine is running with outcome `Continue` and STATUS
0, `remainder` and `equal_flag` are whatever the reset leaves in them, the program buffer is untouched, and the first
fetch is at address 0. -/
def Obligations.ResetLeavesTheResetState : Prop :=
  ∀ (remainderReset : Word) (equalFlagReset : Bool) (s : State),
    let t := resetEvent remainderReset equalFlagReset s
    (∀ i : RegIdx, t.reg i = 0) ∧ t.pc = 0 ∧ t.remainder = remainderReset ∧ t.equalFlag = equalFlagReset ∧
      t.runState = .running ∧ t.outcome = .continues ∧ t.status = 0 ∧
      t.prog = s.prog ∧ t.progLen = s.progLen ∧
      t.bytesAtPc = (List.range (min 4 s.progLen)).map s.prog.read

/-- The model's reset state is a launch state with no program and meets the invariant. Its zero `remainder`, its clear
`equal_flag` and its empty buffer are the model's choices (notes/assumptions/1.md, 2.md, 4.md), and only the empty
buffer is used here. -/
def Obligations.ResetStateMeetsTheInvariant : Prop :=
  State.reset.isLaunch ∧ State.reset.Inv ∧ State.reset.progLen = 0 ∧
    State.reset = resetEvent State.reset.remainder State.reset.equalFlag State.reset

/-- Every step keeps the invariant: `run_state` and `outcome` agree (R28, R29), the program stays legal (R4, R46), the
launch window is open only before the first step (R116), and the events emitted are those of the outcome (R114). The
window bit and the record of events are the model's own fields (notes/assumptions/6.md, 7.md). -/
def Obligations.StepKeepsTheInvariant : Prop :=
  ∀ s t : State, s.Inv → step s = .next t → t.Inv

/-- Everything the host can do keeps the invariant, and reset establishes it wherever the buffer is legal. -/
def Obligations.HostActionsKeepTheInvariant : Prop :=
  (∀ (r : Word) (e : Bool) (s : State), s.programLegal → (resetEvent r e s).Inv ∧ (resetEvent r e s).isLaunch) ∧
    (∀ (bytes : List Byte) (s t : State), s.Inv → hostLoadProgram bytes s = .next t → t.Inv) ∧
    (∀ (idx : BitVec 5) (v : Word) (s : State), s.Inv → (hostWriteReg idx v s).Inv)

/-- 70_reset_and_hazards.md R223, R224: reset, then a load of any program of at most PROG_LEN_MAX bytes, then any register
write, gives a launch state that holds exactly those bytes. A longer program is refused. -/
def Obligations.LaunchSequenceLoadsTheProgram : Prop :=
  ∀ (r : Word) (e : Bool) (s : State) (bytes : List Byte),
    (bytes.length ≤ 2 ^ 31 →
      ∃ t, hostLoadProgram bytes (resetEvent r e s) = .next t ∧ t.progLen = bytes.length ∧
        (∀ (k : Nat) (h : k < bytes.length), t.prog.read k = bytes[k]) ∧
        t.remainder = r ∧ t.equalFlag = e ∧
        ∀ (idx : BitVec 5) (v : Word),
          (hostWriteReg idx v t).isLaunch ∧ hostReadReg idx (hostWriteReg idx v t) = v ∧
            ∀ other : BitVec 5, other ≠ idx → hostReadReg other (hostWriteReg idx v t) = 0) ∧
    (2 ^ 31 < bytes.length → hostLoadProgram bytes (resetEvent r e s) = .refused .programTooLong)

/-- 41_executor_cycle.md R116: in the launch window the host supplies the program and its length and writes any register;
outside it a register write is ignored and a load is refused; the first step of a running machine closes the window, and
only reset opens it again. -/
def Obligations.HostWritesOnlyInTheLaunchWindow : Prop :=
  (∀ (bytes : List Byte) (s : State), s.launchWindow = true → bytes.length ≤ 2 ^ 31 →
      ∃ t, hostLoadProgram bytes s = .next t ∧ t = { s with prog := t.prog, progLen := bytes.length } ∧
        ∀ (k : Nat) (h : k < bytes.length), t.prog.read k = bytes[k]) ∧
  (∀ (idx : BitVec 5) (v : Word) (s : State), s.launchWindow = true →
      hostWriteReg idx v s = { s with x := s.x.set idx.toNat v }) ∧
    (∀ (idx : BitVec 5) (v : Word) (s : State), s.launchWindow = false → hostWriteReg idx v s = s) ∧
    (∀ (bytes : List Byte) (s : State), s.launchWindow = false →
      hostLoadProgram bytes s = .refused .programChangedAfterLaunch) ∧
    (∀ s t : State, s.runState = .running → step s = .next t → t.launchWindow = false) ∧
    (∀ s t : State, s.launchWindow = false → step s = .next t → t.launchWindow = false) ∧
    (∀ (r : Word) (e : Bool) (s : State), (resetEvent r e s).launchWindow = true)

/-! ## The step -/

/-- The step function is total, which 60_exceptions.md section 8 derives from its rules ("A model may state this as a
theorem"). No step stops with a model's fault or refusal; in particular no fetch reads outside the buffer. -/
def Obligations.EveryStepAnswersANextState : Prop :=
  ∀ s : State, ∃ t, step s = .next t

/-- When the bytes at `pc` decode to an instruction, a step of a running machine is that instruction's meaning, run with
the launch window closed; this holds whether or not its register indices are in range. -/
def Obligations.StepRunsTheDecodedInstruction : Prop :=
  ∀ (s : State) (i : Instr) (rest : List Byte),
    s.runState = .running → decode s.bytesAtPc = .ok (i, rest) →
    step s = exec i { s with launchWindow := false }

/-- The instruction that `withFetchWord` places is the one the next step runs. -/
def Obligations.StepRunsThePlacedWord : Prop :=
  ∀ (s : State) (nbits w : Nat), s.prog.wf = true →
    ∃ i, decodeTableWord nbits w = some i ∧
      step (s.withFetchWord nbits w) = exec i { s.withFetchWord nbits w with launchWindow := false }

/-- 41_executor_cycle.md R102: a step taken in `Halted` changes nothing. -/
def Obligations.StepInHaltedChangesNothing : Prop :=
  ∀ s : State, s.runState = .halted → step s = .next s

/-- 41_executor_cycle.md R103: a running machine with `pc >= L` ends with `EndOfProgram` and changes nothing else (but for
the launch window, which any first step closes). -/
def Obligations.EndOfProgramStep : Prop :=
  ∀ s : State, s.runState = .running → s.progLen ≤ s.pc.toNat →
    step s = .next { s with runState := .halted, outcome := .endOfProgram, launchWindow := false }

/-- 60_exceptions.md R192: `TruncatedInstruction` is raised exactly when an operand byte of the instruction at `pc` lies at
or beyond `L`. -/
def Obligations.TruncatedExactlyWhenAnOperandByteIsMissing : Prop :=
  ∀ s t : State, s.runState = .running → step s = .next t →
    (t.outcome = .truncatedInstruction ↔
      s.pc.toNat < s.progLen ∧ 0 < oplen (decodeTag (s.prog.read s.pc.toNat)) ∧
        s.progLen < s.pc.toNat + 1 + oplen (decodeTag (s.prog.read s.pc.toNat)))

/-- 60_exceptions.md R199: the outcome of every step is the first condition that holds, in the order of the priority
table, as read off the bytes at `pc`. -/
def Obligations.StepReportsTheOutcomeOfHighestPriority : Prop :=
  ∀ s t : State, step s = .next t → t.outcome = outcomeByPriority s

/-- 10_state.md R24: where each step leaves `pc`, in unbounded integers. (That none of these values is reduced modulo 2^32
for a legal program length is what the spec derives from it in the rule after it.) -/
def Obligations.PcFollowsTheTableWithoutWrapping : Prop :=
  ∀ s t : State, s.progLen ≤ 2 ^ 31 → step s = .next t → (t.pc.toNat : Int) = pcByTable s t.outcome

/-- 60_exceptions.md R200: a step that raises a fault latches it, ends the run and changes nothing else. -/
def Obligations.FaultsArePrecise : Prop :=
  ∀ s t : State, s.runState = .running → step s = .next t → t.outcome.isFault = true →
    t = { s with runState := .halted, outcome := t.outcome, launchWindow := false }

/-- 41_executor_cycle.md R114: one event for a HLT step, one for an illegal byte, none for any other step. -/
def Obligations.DiagnosticsOnlyFromHltAndIllegalBytes : Prop :=
  diagnosticCode .hltEncountered = 0 ∧ diagnosticCode .illegalOpcodeEncountered = 1 ∧
    ∀ s t : State, step s = .next t →
      t.diagnostics =
        if s.runState = .halted then s.diagnostics
        else if t.outcome = .halted then s.diagnostics ++ [.hltEncountered]
        else if t.outcome = .illegalOpcode then s.diagnostics ++ [.illegalOpcodeEncountered]
        else s.diagnostics

/-- 20_memory.md R42, R51: no step writes the program buffer or changes `L`. -/
def Obligations.NoStepWritesTheProgram : Prop :=
  ∀ s t : State, step s = .next t →
    t.prog = s.prog ∧ t.progLen = s.progLen ∧ ∀ a, t.prog.read a = s.prog.read a

/-- 10_state.md R22, 41_executor_cycle.md R108: a general register changes only as the destination of LOAD, ADD, SUB, MUL
or DIV, so a step changes at most one. -/
def Obligations.OnlyTheDestinationRegisterChanges : Prop :=
  (∀ (i : Instr) (s t : State) (j : RegIdx), exec i s = .next t → t.reg j ≠ s.reg j →
      (∃ rd imm, i = .load rd imm ∧ rd.toNat = j.val) ∨
        ∃ rs1 rs2 rd, rd.toNat = j.val ∧
          (i = .add rs1 rs2 rd ∨ i = .sub rs1 rs2 rd ∨ i = .mul rs1 rs2 rd ∨ i = .div rs1 rs2 rd)) ∧
    (∀ s t : State, step s = .next t → ∃ d : RegIdx, ∀ j, j ≠ d → t.reg j = s.reg j)

/-- 10_state.md R26: `equal_flag` changes only by a comparison. -/
def Obligations.OnlyComparisonsChangeEqualFlag : Prop :=
  ∀ (i : Instr) (s t : State), exec i s = .next t → t.equalFlag ≠ s.equalFlag →
    t.outcome = .continues ∧
      ((∃ ra rb pad, i = .eq ra rb pad ∨ i = .neq ra rb pad) ∨
        ∃ ra rb, i = .gt ra rb ∨ i = .lt ra rb ∨ i = .gte ra rb ∨ i = .lte ra rb)

/-- 10_state.md R27: `remainder` changes only by a DIV that does not fault. -/
def Obligations.OnlyACompletedDivChangesRemainder : Prop :=
  ∀ (i : Instr) (s t : State), exec i s = .next t → t.remainder ≠ s.remainder →
    t.outcome = .continues ∧ ∃ rs1 rs2 rd, i = .div rs1 rs2 rd

/-- 10_state.md R27: no instruction reads `remainder`. Two states that differ in it alone step to states that differ in it
at most. -/
def Obligations.RemainderInfluencesNothing : Prop :=
  ∀ (s t : State) (v : Word), step s = .next t →
    ∃ w, step { s with remainder := v } = .next { t with remainder := w }

/-- 10_state.md R26: only JMPE and JNEQ read `equal_flag`. Any other instruction does the same whatever the flag
holds. -/
def Obligations.OnlyConditionalJumpsReadEqualFlag : Prop :=
  ∀ (i : Instr) (s t : State) (b : Bool), i.tag ≠ .jmpe → i.tag ≠ .jneq → exec i s = .next t →
    ∃ c, exec i { s with equalFlag := b } = .next { t with equalFlag := c }

/-! ## The end of a run -/

/-- 60_exceptions.md R202: once halted, the machine stays exactly as it is, however many steps are taken. -/
def Obligations.TheFinalStateIsStable : Prop :=
  ∀ (k m : Nat) (s t : State), core.run k s = .next t → t.runState = .halted → core.run (k + m) s = .next t

/-- 41_executor_cycle.md R112, 70_reset_and_hazards.md R231: `runToHalt` answers a state exactly when the steps, taken one
by one, first report a terminal outcome there. -/
def Obligations.RunToHaltIsTheFirstTerminalStep : Prop :=
  ∀ (fuel : Nat) (s t : State),
    runToHalt fuel s = some (.next t) ↔
      ∃ k < fuel, core.run (k + 1) s = .next t ∧ t.outcome ≠ .continues ∧
        ∀ j < k, ∃ u, core.run (j + 1) s = .next u ∧ u.outcome = .continues

/-! ## The faults an instruction raises -/

/-- 60_exceptions.md R193: `RegisterIndexOutOfRange` is raised exactly when a register-index field holds 32 or more; nothing
is written. -/
def Obligations.RegisterIndexFaultExactly : Prop :=
  ∀ (i : Instr) (s t : State), exec i s = .next t →
    (t.outcome = .registerIndexOutOfRange ↔ ∃ f ∈ i.regFields, 32 ≤ f.toNat) ∧
      (t.outcome = .registerIndexOutOfRange → Raises i s .registerIndexOutOfRange)

/-- 60_exceptions.md R194: `DivisionByZero` is raised exactly by a DIV whose registers exist and whose divisor holds 0. -/
def Obligations.DivisionByZeroFaultExactly : Prop :=
  ∀ (i : Instr) (s t : State), exec i s = .next t →
    (t.outcome = .divisionByZero ↔
      ∃ (rs1 rs2 rd : Byte) (a b d : RegIdx), i = .div rs1 rs2 rd ∧
        rs1.toNat = a.val ∧ rs2.toNat = b.val ∧ rd.toNat = d.val ∧ s.reg b = 0) ∧
      (t.outcome = .divisionByZero → Raises i s .divisionByZero)

/-- 60_exceptions.md R195: `ProgramCounterUnderflow` is raised exactly by a JMPB whose distance is more than `p0 + 2`. -/
def Obligations.ProgramCounterUnderflowFaultExactly : Prop :=
  ∀ (i : Instr) (s t : State), exec i s = .next t →
    (t.outcome = .programCounterUnderflow ↔
      ∃ (rt : Byte) (r : RegIdx), i = .jmpb rt ∧ rt.toNat = r.val ∧
        (s.pc.toNat : Int) + 2 < (s.reg r).toInt) ∧
      (t.outcome = .programCounterUnderflow → Raises i s .programCounterUnderflow)

/-- 60_exceptions.md R196: `NegativeJumpOperand` is raised exactly by a jump that would be taken and whose register is
negative. -/
def Obligations.NegativeJumpOperandFaultExactly : Prop :=
  ∀ (i : Instr) (s t : State), exec i s = .next t →
    (t.outcome = .negativeJumpOperand ↔
      ∃ (rt : Byte) (r : RegIdx), rt.toNat = r.val ∧ (s.reg r).toInt < 0 ∧
        (i = .jmp rt ∨ i = .jmpf rt ∨ i = .jmpb rt ∨ (i = .jmpe rt ∧ s.equalFlag = true) ∨
          (i = .jneq rt ∧ s.equalFlag = false))) ∧
      (t.outcome = .negativeJumpOperand → Raises i s .negativeJumpOperand)

/-! ## The instructions, each with its encoding, its effect and its faults -/

/-- 42_load.md R130: LOAD. -/
def Obligations.LoadWritesTheZeroExtendedImmediate : Prop :=
  (∀ (rd : Byte) (imm : Imm) (d : RegIdx) (s : State), rd.toNat = d.val →
      exec (.load rd imm) s = .next
        { s with
          x := s.x.set d (BitVec.ofNat 32 imm.toNat)
          pc := BitVec.ofNat 32 (s.pc.toNat + 4)
          outcome := .continues }) ∧
    (∀ (rd : Byte) (imm : Imm) (s : State), 32 ≤ rd.toNat →
      Raises (.load rd imm) s .registerIndexOutOfRange) ∧
    (∀ (rd hi lo : Byte) (rest : List Byte),
      decode (0x00#8 :: rd :: hi :: lo :: rest) =
        .ok (.load rd (BitVec.ofNat 16 (256 * hi.toNat + lo.toNat)), rest)) ∧
    TruncatesAt 0x00#8 4

/-- 43_arithmetic.md R136, R137, R138: ADD, SUB and MUL write the exact result on the signed sources, modulo 2^32. -/
def Obligations.AddSubMulWriteTheWrappedResult : Prop :=
  (∀ (rs1 rs2 rd : Byte) (a b d : RegIdx) (s : State),
      rs1.toNat = a.val → rs2.toNat = b.val → rd.toNat = d.val →
      exec (.add rs1 rs2 rd) s = .next
          { s with
            x := s.x.set d (BitVec.ofInt 32 ((s.reg a).toInt + (s.reg b).toInt))
            pc := BitVec.ofNat 32 (s.pc.toNat + 4)
            outcome := .continues } ∧
        exec (.sub rs1 rs2 rd) s = .next
          { s with
            x := s.x.set d (BitVec.ofInt 32 ((s.reg a).toInt - (s.reg b).toInt))
            pc := BitVec.ofNat 32 (s.pc.toNat + 4)
            outcome := .continues } ∧
        exec (.mul rs1 rs2 rd) s = .next
          { s with
            x := s.x.set d (BitVec.ofInt 32 ((s.reg a).toInt * (s.reg b).toInt))
            pc := BitVec.ofNat 32 (s.pc.toNat + 4)
            outcome := .continues }) ∧
    (∀ (rs1 rs2 rd : Byte) (s : State), 32 ≤ rs1.toNat ∨ 32 ≤ rs2.toNat ∨ 32 ≤ rd.toNat →
      Raises (.add rs1 rs2 rd) s .registerIndexOutOfRange ∧
        Raises (.sub rs1 rs2 rd) s .registerIndexOutOfRange ∧
        Raises (.mul rs1 rs2 rd) s .registerIndexOutOfRange) ∧
    (∀ (rs1 rs2 rd : Byte) (rest : List Byte),
      decode (0x01#8 :: rs1 :: rs2 :: rd :: rest) = .ok (.add rs1 rs2 rd, rest) ∧
        decode (0x02#8 :: rs1 :: rs2 :: rd :: rest) = .ok (.sub rs1 rs2 rd, rest) ∧
        decode (0x03#8 :: rs1 :: rs2 :: rd :: rest) = .ok (.mul rs1 rs2 rd, rest)) ∧
    TruncatesAt 0x01#8 4 ∧ TruncatesAt 0x02#8 4 ∧ TruncatesAt 0x03#8 4

/-- 43_arithmetic.md R139: DIV writes the truncated quotient and, in `remainder`, the remainder that goes with it; a zero
divisor raises `DivisionByZero`. -/
def Obligations.DivWritesQuotientAndRemainder : Prop :=
  (∀ (rs1 rs2 rd : Byte) (a b d : RegIdx) (s : State),
      rs1.toNat = a.val → rs2.toNat = b.val → rd.toNat = d.val → (s.reg b).toInt ≠ 0 →
      exec (.div rs1 rs2 rd) s = .next
        { s with
          x := s.x.set d (BitVec.ofInt 32 ((s.reg a).toInt.tdiv (s.reg b).toInt))
          remainder := BitVec.ofInt 32
            ((s.reg a).toInt - (s.reg b).toInt * (s.reg a).toInt.tdiv (s.reg b).toInt)
          pc := BitVec.ofNat 32 (s.pc.toNat + 4)
          outcome := .continues }) ∧
    (∀ (rs1 rs2 rd : Byte) (a b d : RegIdx) (s : State),
      rs1.toNat = a.val → rs2.toNat = b.val → rd.toNat = d.val → (s.reg b).toInt = 0 →
      Raises (.div rs1 rs2 rd) s .divisionByZero) ∧
    (∀ (rs1 rs2 rd : Byte) (s : State), 32 ≤ rs1.toNat ∨ 32 ≤ rs2.toNat ∨ 32 ≤ rd.toNat →
      Raises (.div rs1 rs2 rd) s .registerIndexOutOfRange) ∧
    (∀ (rs1 rs2 rd : Byte) (rest : List Byte),
      decode (0x04#8 :: rs1 :: rs2 :: rd :: rest) = .ok (.div rs1 rs2 rd, rest)) ∧
    TruncatesAt 0x04#8 4

/-- 43_arithmetic.md R141: division at every sign combination. `q` is what the destination receives and `r` what
`remainder` receives, both read as signed; the one quotient that does not fit wraps; a zero divisor raises
`DivisionByZero` whatever the dividend. -/
def Obligations.DivisionAtEverySign : Prop :=
  ∀ (rs1 rs2 rd : Byte) (i j d : RegIdx) (s : State),
    rs1.toNat = i.val → rs2.toNat = j.val → rd.toNat = d.val →
    ((s.reg j).toInt ≠ 0 →
      ∃ t, exec (.div rs1 rs2 rd) s = .next t ∧
        let a := (s.reg i).toInt
        let b := (s.reg j).toInt
        let q := (t.reg d).toInt
        let r := t.remainder.toInt
        (¬(a = -2 ^ 31 ∧ b = -1) →
          (0 ≤ a → 0 < b → q = a / b) ∧ (a < 0 → 0 < b → q = -(-a / b)) ∧
            (0 ≤ a → b < 0 → q = -(a / -b)) ∧ (a < 0 → b < 0 → q = -a / -b) ∧
            a = b * q + r ∧ (0 ≤ a → 0 ≤ r ∧ r < |b|) ∧ (a < 0 → -|b| < r ∧ r ≤ 0) ∧
            (|a| < |b| → q = 0 ∧ r = a)) ∧
          (a = -2 ^ 31 ∧ b = -1 → q = -2 ^ 31 ∧ r = 0 ∧ (b * q + r) % 2 ^ 32 = a % 2 ^ 32)) ∧
      ((s.reg j).toInt = 0 → Raises (.div rs1 rs2 rd) s .divisionByZero)

/-- 44_halt_illegal.md R150: HLT. -/
def Obligations.HltEndsTheRun : Prop :=
  (∀ s : State, exec .hlt s = .next
      { s with
        pc := BitVec.ofNat 32 (s.pc.toNat + 1)
        runState := .halted
        outcome := .halted
        diagnostics := s.diagnostics ++ [.hltEncountered] }) ∧
    (∀ rest : List Byte, decode (0x05#8 :: rest) = .ok (.hlt, rest)) ∧
    (∀ (i : Instr) (s t : State), exec i s = .next t → t.outcome = .halted → i = .hlt)

/-- 44_halt_illegal.md R151: every opcode byte 17..255 ends the run with `IllegalOpcode`, and all behave alike. -/
def Obligations.IllegalBytesEndTheRun : Prop :=
  (∀ (byte : Byte) (s : State), exec (.igl byte) s = .next
      { s with
        pc := BitVec.ofNat 32 (s.pc.toNat + 1)
        runState := .halted
        outcome := .illegalOpcode
        diagnostics := s.diagnostics ++ [.illegalOpcodeEncountered] }) ∧
    (∀ (byte : Byte) (rest : List Byte), 17 ≤ byte.toNat → decode (byte :: rest) = .ok (.igl byte, rest))

/-- 45_jumps.md R156: JMP. -/
def Obligations.JmpGoesToTheRegister : Prop :=
  (∀ (rt : Byte) (r : RegIdx) (s : State), rt.toNat = r.val → 0 ≤ (s.reg r).toInt →
      exec (.jmp rt) s = .next
        { s with pc := BitVec.ofNat 32 (s.reg r).toInt.toNat, outcome := .continues }) ∧
    (∀ (rt : Byte) (r : RegIdx) (s : State), rt.toNat = r.val → (s.reg r).toInt < 0 →
      Raises (.jmp rt) s .negativeJumpOperand) ∧
    (∀ (rt : Byte) (s : State), 32 ≤ rt.toNat → Raises (.jmp rt) s .registerIndexOutOfRange) ∧
    (∀ (rt : Byte) (rest : List Byte), decode (0x06#8 :: rt :: rest) = .ok (.jmp rt, rest)) ∧
    TruncatesAt 0x06#8 2

/-- 45_jumps.md R157: JMPF. -/
def Obligations.JmpfGoesForward : Prop :=
  (∀ (rt : Byte) (r : RegIdx) (s : State), rt.toNat = r.val → 0 ≤ (s.reg r).toInt →
      exec (.jmpf rt) s = .next
        { s with pc := BitVec.ofNat 32 (s.pc.toNat + 2 + (s.reg r).toInt.toNat), outcome := .continues }) ∧
    (∀ (rt : Byte) (r : RegIdx) (s : State), rt.toNat = r.val → (s.reg r).toInt < 0 →
      Raises (.jmpf rt) s .negativeJumpOperand) ∧
    (∀ (rt : Byte) (s : State), 32 ≤ rt.toNat → Raises (.jmpf rt) s .registerIndexOutOfRange) ∧
    (∀ (rt : Byte) (rest : List Byte), decode (0x07#8 :: rt :: rest) = .ok (.jmpf rt, rest)) ∧
    TruncatesAt 0x07#8 2

/-- 45_jumps.md R158: JMPB. -/
def Obligations.JmpbGoesBackward : Prop :=
  (∀ (rt : Byte) (r : RegIdx) (s : State), rt.toNat = r.val → 0 ≤ (s.reg r).toInt →
      (s.reg r).toInt ≤ s.pc.toNat + 2 →
      exec (.jmpb rt) s = .next
        { s with pc := BitVec.ofNat 32 (s.pc.toNat + 2 - (s.reg r).toInt.toNat), outcome := .continues }) ∧
    (∀ (rt : Byte) (r : RegIdx) (s : State), rt.toNat = r.val → (s.pc.toNat + 2 : Int) < (s.reg r).toInt →
      Raises (.jmpb rt) s .programCounterUnderflow) ∧
    (∀ (rt : Byte) (r : RegIdx) (s : State), rt.toNat = r.val → (s.reg r).toInt < 0 →
      Raises (.jmpb rt) s .negativeJumpOperand) ∧
    (∀ (rt : Byte) (s : State), 32 ≤ rt.toNat → Raises (.jmpb rt) s .registerIndexOutOfRange) ∧
    (∀ (rt : Byte) (rest : List Byte), decode (0x08#8 :: rt :: rest) = .ok (.jmpb rt, rest)) ∧
    TruncatesAt 0x08#8 2

/-- 46_compare.md R166, R167: EQ and NEQ write `equal_flag` and pass their padding byte unread. -/
def Obligations.EqNeqWriteEqualFlag : Prop :=
  (∀ (ra rb pad : Byte) (a b : RegIdx) (s : State), ra.toNat = a.val → rb.toNat = b.val →
      exec (.eq ra rb pad) s = .next
          { s with
            equalFlag := decide ((s.reg a).toInt = (s.reg b).toInt)
            pc := BitVec.ofNat 32 (s.pc.toNat + 4)
            outcome := .continues } ∧
        exec (.neq ra rb pad) s = .next
          { s with
            equalFlag := decide ((s.reg a).toInt ≠ (s.reg b).toInt)
            pc := BitVec.ofNat 32 (s.pc.toNat + 4)
            outcome := .continues }) ∧
    (∀ (ra rb pad : Byte) (s : State), 32 ≤ ra.toNat ∨ 32 ≤ rb.toNat →
      Raises (.eq ra rb pad) s .registerIndexOutOfRange ∧
        Raises (.neq ra rb pad) s .registerIndexOutOfRange) ∧
    (∀ (ra rb pad : Byte) (rest : List Byte),
      decode (0x09#8 :: ra :: rb :: pad :: rest) = .ok (.eq ra rb pad, rest) ∧
        decode (0x0A#8 :: ra :: rb :: pad :: rest) = .ok (.neq ra rb pad, rest)) ∧
    TruncatesAt 0x09#8 4 ∧ TruncatesAt 0x0A#8 4

/-- 46_compare.md R168, R169, R170, R171: GT, LT, GTE and LTE write the signed relation into `equal_flag`. -/
def Obligations.OrderedComparisonsWriteEqualFlag : Prop :=
  (∀ (ra rb : Byte) (a b : RegIdx) (s : State), ra.toNat = a.val → rb.toNat = b.val →
      exec (.gt ra rb) s = .next
          { s with
            equalFlag := decide ((s.reg b).toInt < (s.reg a).toInt)
            pc := BitVec.ofNat 32 (s.pc.toNat + 3)
            outcome := .continues } ∧
        exec (.lt ra rb) s = .next
          { s with
            equalFlag := decide ((s.reg a).toInt < (s.reg b).toInt)
            pc := BitVec.ofNat 32 (s.pc.toNat + 3)
            outcome := .continues } ∧
        exec (.gte ra rb) s = .next
          { s with
            equalFlag := decide ((s.reg b).toInt ≤ (s.reg a).toInt)
            pc := BitVec.ofNat 32 (s.pc.toNat + 3)
            outcome := .continues } ∧
        exec (.lte ra rb) s = .next
          { s with
            equalFlag := decide ((s.reg a).toInt ≤ (s.reg b).toInt)
            pc := BitVec.ofNat 32 (s.pc.toNat + 3)
            outcome := .continues }) ∧
    (∀ (ra rb : Byte) (s : State), 32 ≤ ra.toNat ∨ 32 ≤ rb.toNat →
      Raises (.gt ra rb) s .registerIndexOutOfRange ∧ Raises (.lt ra rb) s .registerIndexOutOfRange ∧
        Raises (.gte ra rb) s .registerIndexOutOfRange ∧ Raises (.lte ra rb) s .registerIndexOutOfRange) ∧
    (∀ (ra rb : Byte) (rest : List Byte),
      decode (0x0B#8 :: ra :: rb :: rest) = .ok (.gt ra rb, rest) ∧
        decode (0x0C#8 :: ra :: rb :: rest) = .ok (.lt ra rb, rest) ∧
        decode (0x0D#8 :: ra :: rb :: rest) = .ok (.gte ra rb, rest) ∧
        decode (0x0E#8 :: ra :: rb :: rest) = .ok (.lte ra rb, rest)) ∧
    TruncatesAt 0x0B#8 3 ∧ TruncatesAt 0x0C#8 3 ∧ TruncatesAt 0x0D#8 3 ∧ TruncatesAt 0x0E#8 3

/-- 47_cond_jumps.md R180: JMPE. -/
def Obligations.JmpeJumpsWhenTheFlagIsSet : Prop :=
  (∀ (rt : Byte) (r : RegIdx) (s : State), rt.toNat = r.val → s.equalFlag = true → 0 ≤ (s.reg r).toInt →
      exec (.jmpe rt) s = .next
        { s with pc := BitVec.ofNat 32 (s.reg r).toInt.toNat, outcome := .continues }) ∧
    (∀ (rt : Byte) (r : RegIdx) (s : State), rt.toNat = r.val → s.equalFlag = false →
      exec (.jmpe rt) s = .next
        { s with pc := BitVec.ofNat 32 (s.pc.toNat + 2), outcome := .continues }) ∧
    (∀ (rt : Byte) (r : RegIdx) (s : State), rt.toNat = r.val → s.equalFlag = true → (s.reg r).toInt < 0 →
      Raises (.jmpe rt) s .negativeJumpOperand) ∧
    (∀ (rt : Byte) (s : State), 32 ≤ rt.toNat → Raises (.jmpe rt) s .registerIndexOutOfRange) ∧
    (∀ (rt : Byte) (rest : List Byte), decode (0x0F#8 :: rt :: rest) = .ok (.jmpe rt, rest)) ∧
    TruncatesAt 0x0F#8 2

/-- 47_cond_jumps.md R181: JNEQ. -/
def Obligations.JneqJumpsWhenTheFlagIsClear : Prop :=
  (∀ (rt : Byte) (r : RegIdx) (s : State), rt.toNat = r.val → s.equalFlag = false → 0 ≤ (s.reg r).toInt →
      exec (.jneq rt) s = .next
        { s with pc := BitVec.ofNat 32 (s.reg r).toInt.toNat, outcome := .continues }) ∧
    (∀ (rt : Byte) (r : RegIdx) (s : State), rt.toNat = r.val → s.equalFlag = true →
      exec (.jneq rt) s = .next
        { s with pc := BitVec.ofNat 32 (s.pc.toNat + 2), outcome := .continues }) ∧
    (∀ (rt : Byte) (r : RegIdx) (s : State), rt.toNat = r.val → s.equalFlag = false → (s.reg r).toInt < 0 →
      Raises (.jneq rt) s .negativeJumpOperand) ∧
    (∀ (rt : Byte) (s : State), 32 ≤ rt.toNat → Raises (.jneq rt) s .registerIndexOutOfRange) ∧
    (∀ (rt : Byte) (rest : List Byte), decode (0x10#8 :: rt :: rest) = .ok (.jneq rt, rest)) ∧
    TruncatesAt 0x10#8 2

/-! ## Encoding and status -/

/-- 40_decoder.md R83: the decoder block's function and the code of its result, on every byte. -/
def Obligations.DecoderBlockFunctionAndCode : Prop :=
  (∀ b : Byte, b.toNat < 17 →
      some (decodeTag b) =
        [Tag.load, .add, .sub, .mul, .div, .hlt, .jmp, .jmpf, .jmpb, .eq, .neq, .gt, .lt, .gte, .lte, .jmpe,
          .jneq][b.toNat]?) ∧
    (∀ b : Byte, 17 ≤ b.toNat → decodeTag b = .igl) ∧
    ∀ b : Byte, (tagCode (decodeTag b)).toNat = min b.toNat 17

/-- The ROM form and the gate form compute the code of the decoder's tag, as 40_decoder.md section 3 derives from the
decoder's function. -/
def Obligations.RomAndGatesComputeTheDecoder : Prop :=
  decoderRom.length = 256 ∧
    ∀ b : Byte, decoderRom[b.toNat]? = some (tagCode (decodeTag b)) ∧ decoderGates b = tagCode (decodeTag b)

/-- Decoding the bytes of any instruction, with any bytes after them, gives that instruction and those bytes. -/
def Obligations.DecodeUndoesEncode : Prop :=
  ∀ (i : Instr) (rest : List Byte), i.encodable = true → decode (encode i ++ rest) = .ok (i, rest)

/-- Whatever is decoded is the encoding of the instruction it was decoded to: no bit is dropped, and no two byte
sequences stand for one instruction. -/
def Obligations.EncodeUndoesDecode : Prop :=
  ∀ (bytes rest : List Byte) (i : Instr), decode bytes = .ok (i, rest) →
    i.encodable = true ∧ encode i ++ rest = bytes

/-- 30_encoding.md R60, R62: the opcode byte alone decides the instruction's tag and its length, and the decoder refuses a
byte sequence only for being shorter than that. -/
def Obligations.OpcodeByteDecidesTagAndLength : Prop :=
  ∀ (b0 : Byte) (operands : List Byte),
    (operands.length < oplen (decodeTag b0) ↔ decode (b0 :: operands) = .error .truncatedInstruction) ∧
      (oplen (decodeTag b0) ≤ operands.length →
        ∃ i, decode (b0 :: operands) = .ok (i, operands.drop (oplen (decodeTag b0))) ∧ i.tag = decodeTag b0)

/-- A few words written out from the encoding tables decode to the instructions they stand for; the first four are the
bytes of the source's scenarios. -/
def Obligations.SpelledWordsDecode : Prop :=
  decode [0x00, 0x00, 0x01, 0xF4] = .ok (.load 0 500, []) ∧
    decode [0x01, 0x00, 0x01, 0x02] = .ok (.add 0 1 2, []) ∧
    decode [0x04, 0x01, 0x00, 0x02] = .ok (.div 1 0 2, []) ∧
    decode [0x05, 0x00, 0x00, 0x00] = .ok (.hlt, [0, 0, 0]) ∧
    decode [0x08, 0x1F] = .ok (.jmpb 31, []) ∧
    decode [0x09, 0x00, 0x01, 0xFF] = .ok (.eq 0 1 0xFF, []) ∧
    decode [0x0B, 0x00, 0x01, 0x05] = .ok (.gt 0 1, [0x05]) ∧
    decode [0x10, 0x04] = .ok (.jneq 4, []) ∧
    decode [0xFE, 0x00, 0x00, 0x00] = .ok (.igl 0xFE, [0, 0, 0])

/-- 30_encoding.md R66: the value of the padding byte has no effect. -/
def Obligations.PaddingByteHasNoEffect : Prop :=
  ∀ (ra rb pad pad' : Byte) (s : State),
    exec (.eq ra rb pad) s = exec (.eq ra rb pad') s ∧ exec (.neq ra rb pad) s = exec (.neq ra rb pad') s

/-- 10_state.md R30, 60_exceptions.md R191: the STATUS word and the numeric codes of the outcomes. -/
def Obligations.StatusWordCarriesOutcomeAndRunState : Prop :=
  (∀ s : State, s.status.extractLsb' 0 4 = outcomeCode s.outcome ∧
      (s.status.getLsbD 4 = true ↔ s.runState = .halted)) ∧
    [Outcome.continues, .halted, .illegalOpcode, .endOfProgram, .registerIndexOutOfRange, .divisionByZero,
      .programCounterUnderflow, .truncatedInstruction, .negativeJumpOperand].map outcomeCode =
      [0, 1, 2, 3, 4, 5, 6, 7, 8] ∧
    (∀ o : Outcome, (outcomeCode o).toNat ≤ 8) ∧ State.reset.status = 0
end

