-- ==== Sys2Proof/Laws/Decoding.lean ====
section
/-! SUPPORT. The decoder block and the decoder of the stream, as their callers use them. -/

namespace Sys2Proof

/-- The tag of each opcode byte that OPMAP lists, and IGL for the rest. -/
theorem decodeTag_eq_igl_iff (b : Byte) : decodeTag b = .igl ↔ 17 ≤ b.toNat := by
  revert b; decide

/-- The decoder undoes `enc`. -/
@[simp] theorem decodeTag_opcodeByte (t : Tag) : decodeTag (opcodeByte t) = t := by
  cases t <;> rfl

/-- `enc` undoes the decoder on every byte of a named tag. -/
theorem opcodeByte_decodeTag {b : Byte} (h : decodeTag b ≠ .igl) : opcodeByte (decodeTag b) = b := by
  revert b; decide

/-- An instruction has at most three operand bytes. -/
theorem oplen_le (t : Tag) : oplen t ≤ 3 := by
  cases t <;> decide

/-- The instruction made for a tag has that tag. -/
@[simp] theorem tag_instrOf (t : Tag) (b0 b1 b2 b3 : Byte) : (instrOf t b0 b1 b2 b3).tag = t := by
  cases t <;> rfl

/-- All that the decoder of the stream can do with a first byte. -/
theorem decode_cons_cases (b0 : Byte) (rest : List Byte) :
    (rest.length < oplen (decodeTag b0) ∧ decode (b0 :: rest) = .error .truncatedInstruction) ∨
      (oplen (decodeTag b0) ≤ rest.length ∧
        decode (b0 :: rest) =
          .ok (instrOf (decodeTag b0) b0 (rest.getD 0 0) (rest.getD 1 0) (rest.getD 2 0),
            rest.drop (oplen (decodeTag b0)))) := by
  by_cases h : rest.length < oplen (decodeTag b0)
  · exact .inl ⟨h, by simp [decode, h]⟩
  · exact .inr ⟨by omega, by simp [decode, h]⟩

/-- The value of an immediate put together from two bytes. -/
@[simp] theorem toNat_immOfBytes (hi lo : Byte) : (immOfBytes hi lo).toNat = 256 * hi.toNat + lo.toNat := by
  have := hi.isLt
  have := lo.isLt
  simp only [immOfBytes, BitVec.toNat_ofNat]
  omega

/-- The two bytes of an immediate, put together again. -/
@[simp] theorem immOfBytes_high_low (imm : Imm) : immOfBytes (immHigh imm) (immLow imm) = imm := by
  have := imm.isLt
  apply BitVec.eq_of_toNat_eq
  simp only [toNat_immOfBytes, immHigh, immLow, BitVec.toNat_ofNat]
  omega

@[simp] theorem immHigh_immOfBytes (hi lo : Byte) : immHigh (immOfBytes hi lo) = hi := by
  have := hi.isLt
  have := lo.isLt
  apply BitVec.eq_of_toNat_eq
  simp only [immHigh, toNat_immOfBytes, BitVec.toNat_ofNat]
  omega

@[simp] theorem immLow_immOfBytes (hi lo : Byte) : immLow (immOfBytes hi lo) = lo := by
  have := lo.isLt
  apply BitVec.eq_of_toNat_eq
  simp only [immLow, toNat_immOfBytes, BitVec.toNat_ofNat]
  omega

end Sys2Proof
end

