-- ==== Sys2Proof/Laws/State.lean ====
section
/-! SUPPORT. Each update of the state, field by field: what it writes, and that it leaves the rest. -/

namespace Sys2Proof.Machine

variable (s : State)

@[simp] theorem State.setReg_x (i : RegIdx) (v : Word) : (s.setReg i v).x = s.x.set i v := rfl
@[simp] theorem State.setReg_pc (i : RegIdx) (v : Word) : (s.setReg i v).pc = s.pc := rfl
@[simp] theorem State.setReg_remainder (i : RegIdx) (v : Word) : (s.setReg i v).remainder = s.remainder := rfl
@[simp] theorem State.setReg_equalFlag (i : RegIdx) (v : Word) : (s.setReg i v).equalFlag = s.equalFlag := rfl
@[simp] theorem State.setReg_runState (i : RegIdx) (v : Word) : (s.setReg i v).runState = s.runState := rfl
@[simp] theorem State.setReg_outcome (i : RegIdx) (v : Word) : (s.setReg i v).outcome = s.outcome := rfl
@[simp] theorem State.setReg_prog (i : RegIdx) (v : Word) : (s.setReg i v).prog = s.prog := rfl
@[simp] theorem State.setReg_progLen (i : RegIdx) (v : Word) : (s.setReg i v).progLen = s.progLen := rfl
@[simp] theorem State.setReg_launchWindow (i : RegIdx) (v : Word) : (s.setReg i v).launchWindow = s.launchWindow := rfl
@[simp] theorem State.setReg_diagnostics (i : RegIdx) (v : Word) : (s.setReg i v).diagnostics = s.diagnostics := rfl

@[simp] theorem State.setRemainder_x (v : Word) : (s.setRemainder v).x = s.x := rfl
@[simp] theorem State.setRemainder_pc (v : Word) : (s.setRemainder v).pc = s.pc := rfl
@[simp] theorem State.setRemainder_remainder (v : Word) : (s.setRemainder v).remainder = v := rfl
@[simp] theorem State.setRemainder_equalFlag (v : Word) : (s.setRemainder v).equalFlag = s.equalFlag := rfl
@[simp] theorem State.setRemainder_runState (v : Word) : (s.setRemainder v).runState = s.runState := rfl
@[simp] theorem State.setRemainder_outcome (v : Word) : (s.setRemainder v).outcome = s.outcome := rfl
@[simp] theorem State.setRemainder_prog (v : Word) : (s.setRemainder v).prog = s.prog := rfl
@[simp] theorem State.setRemainder_progLen (v : Word) : (s.setRemainder v).progLen = s.progLen := rfl
@[simp] theorem State.setRemainder_launchWindow (v : Word) : (s.setRemainder v).launchWindow = s.launchWindow := rfl
@[simp] theorem State.setRemainder_diagnostics (v : Word) : (s.setRemainder v).diagnostics = s.diagnostics := rfl

@[simp] theorem State.setPc_x (t : Nat) : (s.setPc t).x = s.x := rfl
@[simp] theorem State.setPc_pc (t : Nat) : (s.setPc t).pc = BitVec.ofNat 32 t := rfl
@[simp] theorem State.setPc_remainder (t : Nat) : (s.setPc t).remainder = s.remainder := rfl
@[simp] theorem State.setPc_equalFlag (t : Nat) : (s.setPc t).equalFlag = s.equalFlag := rfl
@[simp] theorem State.setPc_runState (t : Nat) : (s.setPc t).runState = s.runState := rfl
@[simp] theorem State.setPc_outcome (t : Nat) : (s.setPc t).outcome = s.outcome := rfl
@[simp] theorem State.setPc_prog (t : Nat) : (s.setPc t).prog = s.prog := rfl
@[simp] theorem State.setPc_progLen (t : Nat) : (s.setPc t).progLen = s.progLen := rfl
@[simp] theorem State.setPc_launchWindow (t : Nat) : (s.setPc t).launchWindow = s.launchWindow := rfl
@[simp] theorem State.setPc_diagnostics (t : Nat) : (s.setPc t).diagnostics = s.diagnostics := rfl

@[simp] theorem State.setEqualFlag_x (b : Bool) : (s.setEqualFlag b).x = s.x := rfl
@[simp] theorem State.setEqualFlag_pc (b : Bool) : (s.setEqualFlag b).pc = s.pc := rfl
@[simp] theorem State.setEqualFlag_remainder (b : Bool) : (s.setEqualFlag b).remainder = s.remainder := rfl
@[simp] theorem State.setEqualFlag_equalFlag (b : Bool) : (s.setEqualFlag b).equalFlag = b := rfl
@[simp] theorem State.setEqualFlag_runState (b : Bool) : (s.setEqualFlag b).runState = s.runState := rfl
@[simp] theorem State.setEqualFlag_outcome (b : Bool) : (s.setEqualFlag b).outcome = s.outcome := rfl
@[simp] theorem State.setEqualFlag_prog (b : Bool) : (s.setEqualFlag b).prog = s.prog := rfl
@[simp] theorem State.setEqualFlag_progLen (b : Bool) : (s.setEqualFlag b).progLen = s.progLen := rfl
@[simp] theorem State.setEqualFlag_launchWindow (b : Bool) : (s.setEqualFlag b).launchWindow = s.launchWindow := rfl
@[simp] theorem State.setEqualFlag_diagnostics (b : Bool) : (s.setEqualFlag b).diagnostics = s.diagnostics := rfl

@[simp] theorem State.complete_x (t : Nat) : (s.complete t).x = s.x := rfl
@[simp] theorem State.complete_pc (t : Nat) : (s.complete t).pc = BitVec.ofNat 32 t := rfl
@[simp] theorem State.complete_remainder (t : Nat) : (s.complete t).remainder = s.remainder := rfl
@[simp] theorem State.complete_equalFlag (t : Nat) : (s.complete t).equalFlag = s.equalFlag := rfl
@[simp] theorem State.complete_runState (t : Nat) : (s.complete t).runState = s.runState := rfl
@[simp] theorem State.complete_outcome (t : Nat) : (s.complete t).outcome = .continues := rfl
@[simp] theorem State.complete_prog (t : Nat) : (s.complete t).prog = s.prog := rfl
@[simp] theorem State.complete_progLen (t : Nat) : (s.complete t).progLen = s.progLen := rfl
@[simp] theorem State.complete_launchWindow (t : Nat) : (s.complete t).launchWindow = s.launchWindow := rfl
@[simp] theorem State.complete_diagnostics (t : Nat) : (s.complete t).diagnostics = s.diagnostics := rfl

@[simp] theorem State.terminate_x (o : Outcome) : (s.terminate o).x = s.x := rfl
@[simp] theorem State.terminate_pc (o : Outcome) : (s.terminate o).pc = s.pc := rfl
@[simp] theorem State.terminate_remainder (o : Outcome) : (s.terminate o).remainder = s.remainder := rfl
@[simp] theorem State.terminate_equalFlag (o : Outcome) : (s.terminate o).equalFlag = s.equalFlag := rfl
@[simp] theorem State.terminate_runState (o : Outcome) : (s.terminate o).runState = .halted := rfl
@[simp] theorem State.terminate_outcome (o : Outcome) : (s.terminate o).outcome = o := rfl
@[simp] theorem State.terminate_prog (o : Outcome) : (s.terminate o).prog = s.prog := rfl
@[simp] theorem State.terminate_progLen (o : Outcome) : (s.terminate o).progLen = s.progLen := rfl
@[simp] theorem State.terminate_launchWindow (o : Outcome) : (s.terminate o).launchWindow = s.launchWindow := rfl
@[simp] theorem State.terminate_diagnostics (o : Outcome) : (s.terminate o).diagnostics = s.diagnostics := rfl

@[simp] theorem State.raise_x (f : Outcome) : (s.raise f).x = s.x := rfl
@[simp] theorem State.raise_pc (f : Outcome) : (s.raise f).pc = s.pc := rfl
@[simp] theorem State.raise_remainder (f : Outcome) : (s.raise f).remainder = s.remainder := rfl
@[simp] theorem State.raise_equalFlag (f : Outcome) : (s.raise f).equalFlag = s.equalFlag := rfl
@[simp] theorem State.raise_runState (f : Outcome) : (s.raise f).runState = .halted := rfl
@[simp] theorem State.raise_outcome (f : Outcome) : (s.raise f).outcome = f := rfl
@[simp] theorem State.raise_prog (f : Outcome) : (s.raise f).prog = s.prog := rfl
@[simp] theorem State.raise_progLen (f : Outcome) : (s.raise f).progLen = s.progLen := rfl
@[simp] theorem State.raise_launchWindow (f : Outcome) : (s.raise f).launchWindow = s.launchWindow := rfl
@[simp] theorem State.raise_diagnostics (f : Outcome) : (s.raise f).diagnostics = s.diagnostics := rfl

@[simp] theorem State.emit_x (d : Diagnostic) : (s.emit d).x = s.x := rfl
@[simp] theorem State.emit_pc (d : Diagnostic) : (s.emit d).pc = s.pc := rfl
@[simp] theorem State.emit_remainder (d : Diagnostic) : (s.emit d).remainder = s.remainder := rfl
@[simp] theorem State.emit_equalFlag (d : Diagnostic) : (s.emit d).equalFlag = s.equalFlag := rfl
@[simp] theorem State.emit_runState (d : Diagnostic) : (s.emit d).runState = s.runState := rfl
@[simp] theorem State.emit_outcome (d : Diagnostic) : (s.emit d).outcome = s.outcome := rfl
@[simp] theorem State.emit_prog (d : Diagnostic) : (s.emit d).prog = s.prog := rfl
@[simp] theorem State.emit_progLen (d : Diagnostic) : (s.emit d).progLen = s.progLen := rfl
@[simp] theorem State.emit_launchWindow (d : Diagnostic) : (s.emit d).launchWindow = s.launchWindow := rfl
@[simp] theorem State.emit_diagnostics (d : Diagnostic) : (s.emit d).diagnostics = s.diagnostics ++ [d] := rfl

@[simp] theorem State.closeLaunchWindow_x : (s.closeLaunchWindow).x = s.x := rfl
@[simp] theorem State.closeLaunchWindow_pc : (s.closeLaunchWindow).pc = s.pc := rfl
@[simp] theorem State.closeLaunchWindow_remainder : (s.closeLaunchWindow).remainder = s.remainder := rfl
@[simp] theorem State.closeLaunchWindow_equalFlag : (s.closeLaunchWindow).equalFlag = s.equalFlag := rfl
@[simp] theorem State.closeLaunchWindow_runState : (s.closeLaunchWindow).runState = s.runState := rfl
@[simp] theorem State.closeLaunchWindow_outcome : (s.closeLaunchWindow).outcome = s.outcome := rfl
@[simp] theorem State.closeLaunchWindow_prog : (s.closeLaunchWindow).prog = s.prog := rfl
@[simp] theorem State.closeLaunchWindow_progLen : (s.closeLaunchWindow).progLen = s.progLen := rfl
@[simp] theorem State.closeLaunchWindow_launchWindow : (s.closeLaunchWindow).launchWindow = false := rfl
@[simp] theorem State.closeLaunchWindow_diagnostics : (s.closeLaunchWindow).diagnostics = s.diagnostics := rfl

/-- A register after a register write: the new value if it is the register written, else the old one. -/
@[simp] theorem State.setReg_reg (i j : RegIdx) (v : Word) :
    (s.setReg i v).reg j = if i = j then v else s.reg j := by
  simp [State.setReg, State.reg, Vector.getElem_set, Fin.ext_iff]

@[simp] theorem State.setRemainder_reg (v : Word) (j : RegIdx) : (s.setRemainder v).reg j = s.reg j := rfl
@[simp] theorem State.setPc_reg (t : Nat) (j : RegIdx) : (s.setPc t).reg j = s.reg j := rfl
@[simp] theorem State.setEqualFlag_reg (b : Bool) (j : RegIdx) : (s.setEqualFlag b).reg j = s.reg j := rfl
@[simp] theorem State.complete_reg (t : Nat) (j : RegIdx) : (s.complete t).reg j = s.reg j := rfl
@[simp] theorem State.terminate_reg (o : Outcome) (j : RegIdx) : (s.terminate o).reg j = s.reg j := rfl
@[simp] theorem State.raise_reg (f : Outcome) (j : RegIdx) : (s.raise f).reg j = s.reg j := rfl
@[simp] theorem State.emit_reg (d : Diagnostic) (j : RegIdx) : (s.emit d).reg j = s.reg j := rfl
@[simp] theorem State.closeLaunchWindow_reg (j : RegIdx) : (s.closeLaunchWindow).reg j = s.reg j := rfl

end Sys2Proof.Machine
end

