-- ==== Sys2Proof/Laws/Memory.lean ====
section
/-! SUPPORT. The program buffer: read after write, the canonical form that every memory operation keeps, and what the
fetch primitives answer. -/

namespace Sys2Proof.Machine

/-- The canonical form of a list with a first entry, piece by piece. -/
theorem Memory.wfFrom_cons {lo c : Nat} {v : Byte} {m : Memory} :
    Memory.wfFrom lo ((c, v) :: m) = true ↔
      lo ≤ c ∧ v ≠ Memory.unlisted ∧ Memory.wfFrom (c + 1) m = true := by
  simp [Memory.wfFrom, and_assoc]

/-- A list in canonical form from `lo` up is so from any lower address. -/
theorem Memory.wfFrom_mono {lo lo' : Nat} {m : Memory} (h : lo' ≤ lo) (hm : Memory.wfFrom lo m = true) :
    Memory.wfFrom lo' m = true := by
  cases m with
  | nil => rfl
  | cons cell m =>
    obtain ⟨c, v⟩ := cell
    rw [Memory.wfFrom_cons] at hm ⊢
    exact ⟨by omega, hm.2⟩

/-- Below the first address of a canonical list nothing is listed. -/
theorem Memory.read_of_lt {lo a : Nat} {m : Memory} (hm : Memory.wfFrom lo m = true) (h : a < lo) :
    m.read a = Memory.unlisted := by
  induction m generalizing lo with
  | nil => rfl
  | cons cell m ih =>
    obtain ⟨c, v⟩ := cell
    rw [Memory.wfFrom_cons] at hm
    rw [Memory.read, if_neg (by omega), ih hm.2.2 (by omega)]

/-- A write leaves every other address alone. -/
theorem Memory.read_write_other (m : Memory) {a a' : Nat} (b : Byte) (h : a' ≠ a) :
    (m.write a b).read a' = m.read a' := by
  induction m with
  | nil => by_cases hb : b = Memory.unlisted <;> simp [Memory.write, Memory.read, hb, h.symm]
  | cons cell m ih =>
    obtain ⟨c, v⟩ := cell
    unfold Memory.write
    split_ifs with h1 h2 h3 h4
    · rfl
    · simp [Memory.read, h.symm]
    · simp [Memory.read, ← h3, h.symm]
    · simp [Memory.read, ← h3, h.symm]
    · simp [Memory.read, ih]

/-- A read after a write to the same address of a canonical list gives the byte written. -/
theorem Memory.read_write_same {lo : Nat} {m : Memory} (hm : Memory.wfFrom lo m = true) (a : Nat) (b : Byte) :
    (m.write a b).read a = b := by
  induction m generalizing lo with
  | nil => by_cases hb : b = Memory.unlisted <;> simp [Memory.write, Memory.read, hb]
  | cons cell m ih =>
    obtain ⟨c, v⟩ := cell
    have hc := Memory.wfFrom_cons.mp hm
    unfold Memory.write
    split_ifs with h1 h2 h3 h4
    · rw [Memory.read, if_neg (by omega), Memory.read_of_lt hc.2.2 (by omega), h2]
    · simp [Memory.read]
    · rw [Memory.read_of_lt hc.2.2 (by omega), h4]
    · simp [Memory.read]
    · rw [Memory.read, if_neg (by omega), ih hc.2.2]

/-- A write keeps the canonical form. -/
theorem Memory.wfFrom_write {lo a : Nat} {m : Memory} (hm : Memory.wfFrom lo m = true) (h : lo ≤ a) (b : Byte) :
    Memory.wfFrom lo (m.write a b) = true := by
  induction m generalizing lo with
  | nil => by_cases hb : b = Memory.unlisted <;> simp [Memory.write, Memory.wfFrom, hb, h]
  | cons cell m ih =>
    obtain ⟨c, v⟩ := cell
    have hc := Memory.wfFrom_cons.mp hm
    unfold Memory.write
    split_ifs with h1 h2 h3 h4
    · exact hm
    · exact Memory.wfFrom_cons.mpr ⟨h, h2, Memory.wfFrom_cons.mpr ⟨h1, hc.2⟩⟩
    · exact Memory.wfFrom_mono (by omega) hc.2.2
    · exact Memory.wfFrom_cons.mpr ⟨h, h4, h3 ▸ hc.2.2⟩
    · exact Memory.wfFrom_cons.mpr ⟨hc.1, hc.2.1, ih hc.2.2 (by omega)⟩

theorem Memory.wf_write {m : Memory} (hm : m.wf = true) (a : Nat) (b : Byte) : (m.write a b).wf = true :=
  Memory.wfFrom_write hm (Nat.zero_le a) b

/-- Writing several bytes keeps the canonical form. -/
theorem Memory.wf_writeBytes (bs : List Byte) {m : Memory} (hm : m.wf = true) (a : Nat) :
    (m.writeBytes a bs).wf = true := by
  induction bs generalizing m a with
  | nil => exact hm
  | cons b bs ih => exact ih (Memory.wf_write hm a b) (a + 1)

/-- Nothing at or above an address, entry by entry. -/
theorem Memory.below_cons {hi c : Nat} {v : Byte} {m : Memory} :
    Memory.below ((c, v) :: m) hi = true ↔ c < hi ∧ Memory.below m hi = true := by
  simp [Memory.below]

/-- A write below an address lists nothing at or above it, if nothing was. -/
theorem Memory.below_write {m : Memory} {hi a : Nat} (hm : m.below hi = true) (h : a < hi) (b : Byte) :
    (m.write a b).below hi = true := by
  induction m with
  | nil => by_cases hb : b = Memory.unlisted <;> simp [Memory.write, Memory.below, hb, h]
  | cons cell m ih =>
    obtain ⟨c, v⟩ := cell
    have hc := Memory.below_cons.mp hm
    unfold Memory.write
    split_ifs
    · exact hm
    · exact Memory.below_cons.mpr ⟨h, hm⟩
    · exact hc.2
    · exact Memory.below_cons.mpr ⟨h, hc.2⟩
    · exact Memory.below_cons.mpr ⟨hc.1, ih hc.2⟩

/-- Writing several bytes lists nothing at or above their end, if nothing was. -/
theorem Memory.below_writeBytes (bs : List Byte) {m : Memory} {hi a : Nat} (hm : m.below hi = true)
    (h : a + bs.length ≤ hi) : (m.writeBytes a bs).below hi = true := by
  induction bs generalizing m a with
  | nil => exact hm
  | cons b bs ih =>
    simp only [List.length_cons] at h
    exact ih (Memory.below_write hm (by omega) b) (by omega)

/-- Writing several bytes leaves the addresses outside them alone. -/
theorem Memory.read_writeBytes_other (bs : List Byte) (m : Memory) {a a' : Nat}
    (h : a' < a ∨ a + bs.length ≤ a') : (m.writeBytes a bs).read a' = m.read a' := by
  induction bs generalizing m a with
  | nil => rfl
  | cons b bs ih =>
    simp only [List.length_cons] at h
    rw [Memory.writeBytes, ih _ (by omega), Memory.read_write_other _ _ (by omega)]

/-- After several bytes are written, each reads back. -/
theorem Memory.read_writeBytes (bs : List Byte) {m : Memory} (hm : m.wf = true) (a k : Nat) (h : k < bs.length) :
    (m.writeBytes a bs).read (a + k) = bs[k] := by
  induction bs generalizing m a k with
  | nil => simp at h
  | cons b bs ih =>
    cases k with
    | zero =>
      rw [Memory.writeBytes, Memory.read_writeBytes_other _ _ (by omega)]
      exact Memory.read_write_same hm a b
    | succ k =>
      have := ih (Memory.wf_write hm a b) (a + 1) k (by simpa using h)
      simpa [Memory.writeBytes, Nat.add_assoc, Nat.add_comm 1 k] using this

/-- `Fetch8` below `L` gives the byte of the buffer. -/
theorem State.fetch8_of_lt {s : State} {a : Nat} (h : a < s.progLen) : s.fetch8 a = .ok (s.prog.read a) := by
  simp [State.fetch8, h]

/-- All that `Fetch8` can do. -/
theorem State.fetch8_cases (s : State) (a : Nat) :
    (a < s.progLen ∧ s.fetch8 a = .ok (s.prog.read a)) ∨
      (s.progLen ≤ a ∧ s.fetch8 a = .error .noSuchAddress) := by
  by_cases h : a < s.progLen
  · exact .inl ⟨h, State.fetch8_of_lt h⟩
  · exact .inr ⟨by omega, by simp [State.fetch8, h]⟩

/-- `MemRead` inside the buffer gives its bytes in address order. -/
theorem State.memRead_of_le (s : State) (a n : Nat) (h : a + n ≤ s.progLen) :
    s.memRead a n = .ok ((List.range' a n).map s.prog.read) := by
  induction n generalizing a with
  | zero => rfl
  | succ n ih =>
    rw [State.memRead, State.fetch8_of_lt (by omega), ih (a + 1) (by omega)]
    simp [List.range'_succ]

end Sys2Proof.Machine
end

