-- ==== Sys2Proof/Laws/Operands.lean ====
section
/-! SUPPORT. What each operand form and each shared meaning can do. -/

namespace Sys2Proof.Machine

/-- An operand byte below 32 names the register of that number. -/
theorem regIndex?_of_lt {b : Byte} (h : b.toNat < 32) : regIndex? b = some ⟨b.toNat, h⟩ := by
  simp [regIndex?, h]

theorem regIndex?_eq_some {b : Byte} {i : RegIdx} : regIndex? b = some i ↔ b.toNat = i.val := by
  unfold regIndex?
  split
  · simp [Fin.ext_iff]
  · have := i.isLt
    simp
    omega

theorem regIndex?_eq_none {b : Byte} : regIndex? b = none ↔ 32 ≤ b.toNat := by
  simp [regIndex?]

/-- One register operand that names register `i`. -/
theorem withReg_of_eq {b : Byte} {i : RegIdx} (h : b.toNat = i.val) (s : State) (k : RegIdx → State) :
    withReg b s k = k i := by
  rw [withReg, regIndex?_eq_some.mpr h]

/-- One register operand that names none. -/
theorem withReg_of_le {b : Byte} (h : 32 ≤ b.toNat) (s : State) (k : RegIdx → State) :
    withReg b s k = s.raise .registerIndexOutOfRange := by
  rw [withReg, regIndex?_eq_none.mpr h]

/-- All that one register operand can do. -/
theorem withReg_cases (b : Byte) (s : State) (k : RegIdx → State) :
    (∃ i : RegIdx, b.toNat = i.val ∧ withReg b s k = k i) ∨
      (32 ≤ b.toNat ∧ withReg b s k = s.raise .registerIndexOutOfRange) := by
  by_cases h : b.toNat < 32
  · exact .inl ⟨⟨b.toNat, h⟩, rfl, withReg_of_eq rfl s k⟩
  · exact .inr ⟨by omega, withReg_of_le (by omega) s k⟩

/-- All that two register operands can do. -/
theorem withReg2_cases (b1 b2 : Byte) (s : State) (k : RegIdx → RegIdx → State) :
    (∃ i j : RegIdx, b1.toNat = i.val ∧ b2.toNat = j.val ∧ withReg2 b1 b2 s k = k i j) ∨
      ((32 ≤ b1.toNat ∨ 32 ≤ b2.toNat) ∧ withReg2 b1 b2 s k = s.raise .registerIndexOutOfRange) := by
  unfold withReg2
  obtain ⟨i, hi, h1⟩ | ⟨h, h1⟩ := withReg_cases b1 s fun i => withReg b2 s fun j => k i j
  · obtain ⟨j, hj, h2⟩ | ⟨h, h2⟩ := withReg_cases b2 s fun j => k i j
    · exact .inl ⟨i, j, hi, hj, h1.trans h2⟩
    · exact .inr ⟨.inr h, h1.trans h2⟩
  · exact .inr ⟨.inl h, h1⟩

/-- All that three register operands can do. -/
theorem withReg3_cases (b1 b2 b3 : Byte) (s : State) (k : RegIdx → RegIdx → RegIdx → State) :
    (∃ i j d : RegIdx, b1.toNat = i.val ∧ b2.toNat = j.val ∧ b3.toNat = d.val ∧
        withReg3 b1 b2 b3 s k = k i j d) ∨
      ((32 ≤ b1.toNat ∨ 32 ≤ b2.toNat ∨ 32 ≤ b3.toNat) ∧
        withReg3 b1 b2 b3 s k = s.raise .registerIndexOutOfRange) := by
  obtain ⟨i, j, hi, hj, h1⟩ | ⟨h, h1⟩ := withReg2_cases b1 b2 s fun i j => withReg b3 s fun d => k i j d
  · obtain ⟨d, hd, h2⟩ | ⟨h, h2⟩ := withReg_cases b3 s fun d => k i j d
    · exact .inl ⟨i, j, d, hi, hj, hd, h1.trans h2⟩
    · exact .inr ⟨.inr (.inr h), h1.trans h2⟩
  · exact .inr ⟨h.elim .inl (fun h => .inr (.inl h)), h1⟩

/-- All that the operand of a jump can do. -/
theorem withJumpOperand_cases (i : RegIdx) (s : State) (k : Nat → State) :
    ((s.reg i).toInt < 0 ∧ withJumpOperand i s k = s.raise .negativeJumpOperand) ∨
      (∃ v : Nat, (s.reg i).toInt = v ∧ withJumpOperand i s k = k v) := by
  by_cases h : (s.reg i).toInt < 0
  · exact .inl ⟨h, if_pos h⟩
  · exact .inr ⟨(s.reg i).toInt.toNat, by omega, if_neg h⟩

/-- A jump operand that is not negative. -/
theorem withJumpOperand_of_nonneg {i : RegIdx} {s : State} (h : 0 ≤ (s.reg i).toInt) (k : Nat → State) :
    withJumpOperand i s k = k (s.reg i).toInt.toNat :=
  if_neg (not_lt.mpr h)

/-- A jump operand that is negative. -/
theorem withJumpOperand_of_neg {i : RegIdx} {s : State} (h : (s.reg i).toInt < 0) (k : Nat → State) :
    withJumpOperand i s k = s.raise .negativeJumpOperand :=
  if_pos h

/-- All that ADD, SUB and MUL can do. -/
theorem arithWith_cases (f : Int → Int → Int) (t : Tag) (rs1 rs2 rd : Byte) (s : State) :
    (∃ i j d : RegIdx, rs1.toNat = i.val ∧ rs2.toNat = j.val ∧ rd.toNat = d.val ∧
        arithWith f t rs1 rs2 rd s =
          (s.setReg d (wrap32 (f (s.reg i).toInt (s.reg j).toInt))).complete (s.pn t)) ∨
      ((32 ≤ rs1.toNat ∨ 32 ≤ rs2.toNat ∨ 32 ≤ rd.toNat) ∧
        arithWith f t rs1 rs2 rd s = s.raise .registerIndexOutOfRange) :=
  withReg3_cases rs1 rs2 rd s _

/-- All that a comparison can do. -/
theorem compareWith_cases (rel : Int → Int → Bool) (t : Tag) (ra rb : Byte) (s : State) :
    (∃ i j : RegIdx, ra.toNat = i.val ∧ rb.toNat = j.val ∧
        compareWith rel t ra rb s =
          (s.setEqualFlag (rel (s.reg i).toInt (s.reg j).toInt)).complete (s.pn t)) ∨
      ((32 ≤ ra.toNat ∨ 32 ≤ rb.toNat) ∧ compareWith rel t ra rb s = s.raise .registerIndexOutOfRange) :=
  withReg2_cases ra rb s _

/-- All that a conditional jump can do. -/
theorem condJump_cases (taken : Bool) (t : Tag) (rt : Byte) (s : State) :
    (32 ≤ rt.toNat ∧ condJump taken t rt s = s.raise .registerIndexOutOfRange) ∨
      (∃ i : RegIdx, rt.toNat = i.val ∧
        ((taken = false ∧ condJump taken t rt s = s.complete (s.pn t)) ∨
          (taken = true ∧ (s.reg i).toInt < 0 ∧ condJump taken t rt s = s.raise .negativeJumpOperand) ∨
          (∃ v : Nat, taken = true ∧ (s.reg i).toInt = v ∧ condJump taken t rt s = s.complete v))) := by
  unfold condJump
  obtain ⟨i, hi, h⟩ | ⟨hi, h⟩ := withReg_cases rt s fun i =>
    if taken then withJumpOperand i s fun v => s.complete v else s.complete (s.pn t)
  · refine .inr ⟨i, hi, ?_⟩
    cases taken with
    | false => exact .inl ⟨rfl, h⟩
    | true =>
      obtain ⟨hv, hj⟩ | ⟨v, hv, hj⟩ := withJumpOperand_cases i s fun v => s.complete v
      · exact .inr (.inl ⟨rfl, hv, h.trans hj⟩)
      · exact .inr (.inr ⟨v, rfl, hv, h.trans hj⟩)
  · exact .inl ⟨hi, h⟩

end Sys2Proof.Machine
end

