-- ==== Sys2Proof/Laws/PerInstr.lean ====
section
/-! SUPPORT. Facts stated for all instructions, one lemma per constructor. -/

namespace Sys2Proof.Laws

/-- The bytes of an instruction are as many as its tag's length says, and the first of them is decoded to its tag. -/
def EncodeShape.Statement (i : Instr) : Prop :=
  i.encodable = true →
    (encode i).length = 1 + oplen i.tag ∧ (encode i).head?.map decodeTag = some i.tag

theorem EncodeShape.load (rd : Byte) (imm : Imm) : EncodeShape.Statement (.load rd imm) := fun _ => ⟨rfl, rfl⟩
theorem EncodeShape.add (rs1 rs2 rd : Byte) : EncodeShape.Statement (.add rs1 rs2 rd) := fun _ => ⟨rfl, rfl⟩
theorem EncodeShape.sub (rs1 rs2 rd : Byte) : EncodeShape.Statement (.sub rs1 rs2 rd) := fun _ => ⟨rfl, rfl⟩
theorem EncodeShape.mul (rs1 rs2 rd : Byte) : EncodeShape.Statement (.mul rs1 rs2 rd) := fun _ => ⟨rfl, rfl⟩
theorem EncodeShape.div (rs1 rs2 rd : Byte) : EncodeShape.Statement (.div rs1 rs2 rd) := fun _ => ⟨rfl, rfl⟩
theorem EncodeShape.hlt : EncodeShape.Statement .hlt := fun _ => ⟨rfl, rfl⟩
theorem EncodeShape.jmp (rt : Byte) : EncodeShape.Statement (.jmp rt) := fun _ => ⟨rfl, rfl⟩
theorem EncodeShape.jmpf (rt : Byte) : EncodeShape.Statement (.jmpf rt) := fun _ => ⟨rfl, rfl⟩
theorem EncodeShape.jmpb (rt : Byte) : EncodeShape.Statement (.jmpb rt) := fun _ => ⟨rfl, rfl⟩
theorem EncodeShape.eq (ra rb pad : Byte) : EncodeShape.Statement (.eq ra rb pad) := fun _ => ⟨rfl, rfl⟩
theorem EncodeShape.neq (ra rb pad : Byte) : EncodeShape.Statement (.neq ra rb pad) := fun _ => ⟨rfl, rfl⟩
theorem EncodeShape.gt (ra rb : Byte) : EncodeShape.Statement (.gt ra rb) := fun _ => ⟨rfl, rfl⟩
theorem EncodeShape.lt (ra rb : Byte) : EncodeShape.Statement (.lt ra rb) := fun _ => ⟨rfl, rfl⟩
theorem EncodeShape.gte (ra rb : Byte) : EncodeShape.Statement (.gte ra rb) := fun _ => ⟨rfl, rfl⟩
theorem EncodeShape.lte (ra rb : Byte) : EncodeShape.Statement (.lte ra rb) := fun _ => ⟨rfl, rfl⟩
theorem EncodeShape.jmpe (rt : Byte) : EncodeShape.Statement (.jmpe rt) := fun _ => ⟨rfl, rfl⟩
theorem EncodeShape.jneq (rt : Byte) : EncodeShape.Statement (.jneq rt) := fun _ => ⟨rfl, rfl⟩

/-- An illegal byte is its own encoding, and is decoded to the illegal tag because it is at least 17. -/
theorem EncodeShape.igl (byte : Byte) : EncodeShape.Statement (.igl byte) := fun h => by
  have : decodeTag byte = .igl := (decodeTag_eq_igl_iff byte).mpr (by simpa [Instr.encodable] using h)
  exact ⟨rfl, by simp [encode, this, Instr.tag]⟩

end Sys2Proof.Laws
end

