-- ==== Sys2Proof/Laws/Step.lean ====
section
/-! SUPPORT. The common part of a step: what fetch reads, and all that the fetch phase and the step can do. -/

namespace Sys2Proof.Machine

/-- The fetch reads, of the bytes at `pc`, exactly what the decoder takes: decoding what it read is decoding the
bytes at `pc`. -/
theorem decode_take (b0 : Byte) (rest : List Byte) :
    (decode (b0 :: rest.take (oplen (decodeTag b0)))).map Prod.fst = (decode (b0 :: rest)).map Prod.fst := by
  by_cases h : rest.length < oplen (decodeTag b0)
  · simp [decode, h]
  · simp only [decode, h, List.length_take, if_false, if_neg (show ¬min (oplen (decodeTag b0)) rest.length <
      oplen (decodeTag b0) by omega)]
    simp only [Except.map]
    cases decodeTag b0 <;> simp [instrOf, oplen, List.getD_eq_getElem?_getD]

/-- The bytes at `pc`, first one apart. -/
theorem bytesAtPc_eq (s : State) (h : s.pc.toNat < s.progLen) :
    s.bytesAtPc =
      s.prog.read s.pc.toNat ::
        (List.range' (s.pc.toNat + 1) (min 3 (s.progLen - (s.pc.toNat + 1)))).map s.prog.read := by
  have hm : min 4 (s.progLen - s.pc.toNat) = min 3 (s.progLen - (s.pc.toNat + 1)) + 1 := by omega
  rw [State.bytesAtPc, hm, List.range_eq_range', List.range'_succ, List.map_cons]
  congr 1
  rw [show (0 + 1 : Nat) = 1 from rfl]
  apply List.ext_getElem
  · simp
  · intro k h1 h2
    simp only [List.getElem_map, List.getElem_range']
    congr 1
    omega

/-- Below `L`, the fetch decodes the bytes at `pc` and reads nothing that is not there. -/
theorem fetchInstr_eq (s : State) (h : s.pc.toNat < s.progLen) :
    fetchInstr s = .ok ((decode s.bytesAtPc).map Prod.fst) := by
  have hle := oplen_le (decodeTag (s.prog.read s.pc.toNat))
  have htake (a m n : Nat) : (List.range' a m).take n = List.range' a (min n m) := by
    apply List.ext_getElem <;> simp
  rw [fetchInstr, State.fetch8_of_lt h, bytesAtPc_eq s h, ← decode_take, ← List.map_take, htake]
  simp only
  rw [State.memRead_of_le _ _ _ (by omega)]
  rw [show min (oplen (decodeTag (s.prog.read s.pc.toNat))) (min 3 (s.progLen - (s.pc.toNat + 1))) =
    min (oplen (decodeTag (s.prog.read s.pc.toNat))) (s.progLen - (s.pc.toNat + 1)) by omega]
  simp only
  cases decode (s.prog.read s.pc.toNat :: List.map s.prog.read (List.range' (s.pc.toNat + 1)
    (min (oplen (decodeTag (s.prog.read s.pc.toNat))) (s.progLen - (s.pc.toNat + 1))))) <;> rfl

/-- Which of the two things decoding the bytes at `pc` gives: `TruncatedInstruction` when an operand byte lies at or
beyond `L`, else an instruction of the opcode byte's tag. -/
theorem decode_bytesAtPc_cases (s : State) (h : s.pc.toNat < s.progLen) :
    (s.progLen < s.pn (decodeTag (s.prog.read s.pc.toNat)) ∧
        decode s.bytesAtPc = .error .truncatedInstruction) ∨
      (s.pn (decodeTag (s.prog.read s.pc.toNat)) ≤ s.progLen ∧
        ∃ i rest, decode s.bytesAtPc = .ok (i, rest) ∧ i.tag = decodeTag (s.prog.read s.pc.toNat)) := by
  have hle := oplen_le (decodeTag (s.prog.read s.pc.toNat))
  rw [bytesAtPc_eq s h, State.pn]
  obtain ⟨hl, hd⟩ | ⟨hl, hd⟩ := decode_cons_cases (s.prog.read s.pc.toNat)
    ((List.range' (s.pc.toNat + 1) (min 3 (s.progLen - (s.pc.toNat + 1)))).map s.prog.read)
  · rw [List.length_map, List.length_range'] at hl
    exact .inl ⟨by omega, hd⟩
  · rw [List.length_map, List.length_range'] at hl
    exact .inr ⟨by omega, _, _, hd, tag_instrOf _ _ _ _ _⟩

/-- All that a step can do. -/
theorem step_cases (s : State) :
    (s.runState = .halted ∧ step s = .next s) ∨
      (s.runState = .running ∧ s.progLen ≤ s.pc.toNat ∧
        step s = .next (s.closeLaunchWindow.terminate .endOfProgram)) ∨
      (s.runState = .running ∧ s.pc.toNat < s.progLen ∧
        s.progLen < s.pn (decodeTag (s.prog.read s.pc.toNat)) ∧
        step s = .next (s.closeLaunchWindow.raise .truncatedInstruction)) ∨
      (s.runState = .running ∧ s.pc.toNat < s.progLen ∧
        s.pn (decodeTag (s.prog.read s.pc.toNat)) ≤ s.progLen ∧
        ∃ i rest, decode s.bytesAtPc = .ok (i, rest) ∧ i.tag = decodeTag (s.prog.read s.pc.toNat) ∧
          step s = exec i s.closeLaunchWindow) := by
  cases hr : s.runState with
  | halted => exact .inl ⟨rfl, by simp [step, fetchPhase, hr]⟩
  | running =>
    by_cases hp : s.progLen ≤ s.pc.toNat
    · exact .inr (.inl ⟨rfl, hp, by simp [step, fetchPhase, hr, hp]⟩)
    · have hlt : s.pc.toNat < s.progLen := by omega
      obtain ⟨hl, hd⟩ | ⟨hl, i, rest, hd, ht⟩ := decode_bytesAtPc_cases s hlt
      · exact .inr (.inr (.inl ⟨rfl, hlt, hl, by
          simp [step, fetchPhase, hr, hp, fetchInstr_eq s hlt, hd, Except.map]⟩))
      · exact .inr (.inr (.inr ⟨rfl, hlt, hl, i, rest, hd, ht, by
          simp [step, fetchPhase, hr, hp, fetchInstr_eq s hlt, hd, Except.map]⟩))

/-- Every meaning answers a next state. -/
theorem exec_next (i : Instr) (s : State) : ∃ t, exec i s = .next t := by
  cases i <;> exact ⟨_, rfl⟩

end Sys2Proof.Machine
end

