-- ==== Sys2Proof/Tests/Slice0.lean ====
section
/-! SUPPORT. The model's own tests: the checks of WellFormed.lean, words written out from the encoding tables, single
steps taken from 95_test_vectors.md (each names its vector), and for each statement with hypotheses a state and operands
that meet them. -/

namespace Sys2Proof.Tests

open Sys2Proof Sys2Proof.Machine

/-! ## Helpers -/

/-- A running machine with the given program, `pc`, `equal_flag` and registers (the rest hold 0). -/
def machineAt (bytes : List Byte) (p0 : Nat) (eq : Bool) (regs : List (RegIdx × Word)) : State :=
  { State.reset with
    x := regs.foldl (fun x p => x.set p.1 p.2) State.reset.x
    pc := BitVec.ofNat 32 p0
    equalFlag := eq
    prog := Memory.writeBytes [] 0 bytes
    progLen := bytes.length }

/-- What one step from a state leaves, seen through `f`. -/
def afterStep {α : Type} (s : State) (f : State → α) : Option α :=
  match step s with
  | .next t => some (f t)
  | .fault _ => none
  | .refused _ => none

/-! ## WellFormed refuses an ill-formed term for each of its checks -/

theorem test_encodable_refuses_a_named_byte : (Instr.igl 16).encodable = false := by decide
theorem test_encodable_takes_the_illegal_bytes :
    (Instr.igl 17).encodable = true ∧ (Instr.igl 255).encodable = true := by decide
theorem test_regsInRange_refuses_a_destination : (Instr.load 32 1).regsInRange = false := by decide
theorem test_regsInRange_refuses_each_field :
    (Instr.add 32 0 0).regsInRange = false ∧ (Instr.add 0 32 0).regsInRange = false ∧
      (Instr.add 0 0 32).regsInRange = false ∧ (Instr.eq 0 99 0).regsInRange = false ∧
      (Instr.gt 31 32).regsInRange = false ∧ (Instr.jneq 255).regsInRange = false := by decide
theorem test_regsInRange_ignores_the_padding_and_the_immediate :
    (Instr.eq 31 31 255).regsInRange = true ∧ (Instr.load 31 0xFFFF).regsInRange = true := by decide
theorem test_wellFormed_needs_both_checks :
    (Instr.igl 0).wellFormed = false ∧ (Instr.div 0 1 40).wellFormed = false ∧
      (Instr.div 0 1 31).wellFormed = true := by decide

/-! ## Words written out from 30_encoding.md R61, R63, R71 decode to what they stand for -/

theorem test_decode_load : decode [0x00, 0x03, 0x12, 0x34] = .ok (.load 3 0x1234, []) := by rfl
theorem test_decode_add : decode [0x01, 0x00, 0x01, 0x02] = .ok (.add 0 1 2, []) := by rfl
theorem test_decode_sub : decode [0x02, 0x04, 0x05, 0x06] = .ok (.sub 4 5 6, []) := by rfl
theorem test_decode_mul : decode [0x03, 0x07, 0x08, 0x09] = .ok (.mul 7 8 9, []) := by rfl
theorem test_decode_div : decode [0x04, 0x01, 0x00, 0x02] = .ok (.div 1 0 2, []) := by rfl
theorem test_decode_hlt : decode [0x05, 0x00] = .ok (.hlt, [0x00]) := by rfl
theorem test_decode_jmp : decode [0x06, 0x1F, 0x05] = .ok (.jmp 31, [0x05]) := by rfl
theorem test_decode_jmpf : decode [0x07, 0x06] = .ok (.jmpf 6, []) := by rfl
theorem test_decode_jmpb : decode [0x08, 0x01] = .ok (.jmpb 1, []) := by rfl
theorem test_decode_eq : decode [0x09, 0x00, 0x01, 0xFF] = .ok (.eq 0 1 0xFF, []) := by rfl
theorem test_decode_neq : decode [0x0A, 0x02, 0x03, 0x00] = .ok (.neq 2 3 0, []) := by rfl
theorem test_decode_gt : decode [0x0B, 0x00, 0x01, 0x05] = .ok (.gt 0 1, [0x05]) := by rfl
theorem test_decode_lt : decode [0x0C, 0x02, 0x03] = .ok (.lt 2 3, []) := by rfl
theorem test_decode_gte : decode [0x0D, 0x04, 0x05] = .ok (.gte 4 5, []) := by rfl
theorem test_decode_lte : decode [0x0E, 0x1F, 0x20] = .ok (.lte 31 32, []) := by rfl
theorem test_decode_jmpe : decode [0x0F, 0x05] = .ok (.jmpe 5, []) := by rfl
theorem test_decode_jneq : decode [0x10, 0x04] = .ok (.jneq 4, []) := by rfl
theorem test_decode_igl :
    decode [0x11, 0x00] = .ok (.igl 0x11, [0x00]) ∧ decode [0x20, 0xF4] = .ok (.igl 0x20, [0xF4]) ∧
      decode [0xFF] = .ok (.igl 0xFF, []) := by exact ⟨rfl, rfl, rfl⟩
/-- R105: the padding byte counts towards the length. -/
theorem test_decode_refuses_short_bytes :
    decode [] = .error .truncatedInstruction ∧ decode [0x09, 0x00, 0x01] = .error .truncatedInstruction ∧
      decode [0x0B, 0x00] = .error .truncatedInstruction ∧ decode [0x10] = .error .truncatedInstruction :=
  ⟨rfl, rfl, rfl, rfl⟩
/-- R71: `LOAD r0, 500` and `NEQ r2, r3` assemble to the bytes shown. -/
theorem test_encode :
    encode (.load 0 500) = [0x00, 0x00, 0x01, 0xF4] ∧ encode (.neq 2 3 0) = [0x0A, 0x02, 0x03, 0x00] ∧
      encode (.jmpb 1) = [0x08, 0x01] ∧ encode .hlt = [0x05] := by decide
/-- The table's numbering: the first byte stands in bits 7..0, and bits from `nbits` up are 0. -/
theorem test_decodeTableWord :
    decodeTableWord 32 0xF4010000 = some (.load 0 500) ∧ decodeTableWord 8 0xFFFFFF01 = some (.add 0 0 0) ∧
      decodeTableWord 16 0x0410 = some (.jneq 4) ∧ decodeTableWord 8 0x05 = some .hlt := by decide

/-! ## The decoder block: 95_test_vectors.md 2.1, the boundaries of R85 -/

theorem test_decodeTag_boundaries :
    decodeTag 0x0F = .jmpe ∧ decodeTag 0x10 = .jneq ∧ decodeTag 0x11 = .igl ∧ decodeTag 0x20 = .igl ∧
      decodeTag 0x25 = .igl ∧ decodeTag 0x85 = .igl ∧ decodeTag 0xFF = .igl := by decide
theorem test_tagCode : tagCode .hlt = 5 ∧ tagCode .jneq = 16 ∧ tagCode .igl = 17 := by decide

/-! ## Single steps from 95_test_vectors.md -/

/-- V-L1 (the source's scenario 1). -/
theorem test_load_500 :
    afterStep (machineAt [0x00, 0x00, 0x01, 0xF4] 0 false []) (fun t => (t.reg 0, t.pc, t.outcome)) =
      some (500, 4, .continues) := by decide
/-- V-L3: zero extension. -/
theorem test_load_zero_extends :
    afterStep (machineAt [0x00, 0x05, 0x80, 0x00] 0 false []) (fun t => (t.reg 5).toInt) = some 32768 := by decide

/-- V-A2: wraps to the least integer. -/
theorem test_add_wraps :
    afterStep (machineAt [0x01, 0x00, 0x01, 0x02] 0 false [(0, 0x7FFFFFFF), (1, 1)])
        (fun t => ((t.reg 2).toInt, t.pc)) =
      some (-2147483648, 4) := by decide
/-- V-A7: both sources are read before the destination is written. -/
theorem test_add_same_register :
    afterStep (machineAt [0x01, 0x00, 0x00, 0x00] 0 false [(0, 0x40000000)]) (fun t => t.reg 0) =
      some 0x80000000 := by decide
/-- V-SB1: first minus second. -/
theorem test_sub_order :
    afterStep (machineAt [0x02, 0x00, 0x01, 0x02] 0 false [(0, 5), (1, 10)]) (fun t => (t.reg 2).toInt) =
      some (-5) := by decide
/-- V-M7: the low 32 bits of the product. -/
theorem test_mul_low_bits :
    afterStep (machineAt [0x03, 0x00, 0x01, 0x02] 0 false [(0, 123456789), (1, 1000)]) (fun t => (t.reg 2).toInt) =
      some (-1097262584) := by decide
/-- V-D3: the quotient goes toward zero, the remainder has the sign of the dividend. -/
theorem test_div_negative_dividend :
    afterStep (machineAt [0x04, 0x00, 0x01, 0x02] 0 false [(0, -7), (1, 2)]) (fun t => ((t.reg 2).toInt, t.remainder)) =
      some (-3, 0xFFFFFFFF) := by decide
/-- V-D23: the quotient overwrites the divisor after it was read. -/
theorem test_div_over_its_divisor :
    afterStep (machineAt [0x04, 0x00, 0x01, 0x01] 0 false [(0, 100), (1, 7)]) (fun t => (t.reg 1, t.remainder)) =
      some (14, 2) := by decide

/-- V-H1 (the source's scenario 4). -/
theorem test_hlt :
    afterStep (machineAt [0x05, 0x00, 0x00, 0x00] 0 false [])
        (fun t => (t.pc, t.outcome, t.runState, t.diagnostics)) =
      some (1, .halted, .halted, [.hltEncountered]) := by decide
/-- V-H2 (the source's scenario 5). -/
theorem test_igl :
    afterStep (machineAt [0xFE, 0x00, 0x00, 0x00] 0 false [])
        (fun t => (t.pc, t.outcome, t.runState, t.diagnostics)) =
      some (1, .illegalOpcode, .halted, [.illegalOpcodeEncountered]) := by decide

/-- V-J2: to address 0, from an address that is not 0. -/
theorem test_jmp :
    afterStep (machineAt [0x05, 0x05, 0x06, 0x03] 2 false []) (fun t => (t.pc, t.outcome)) =
      some (0, .continues) := by decide
/-- V-F5: the greatest distance fits `pc`. -/
theorem test_jmpf_greatest_distance :
    afterStep (machineAt [0x07, 0x00] 0 false [(0, 0x7FFFFFFF)]) (fun t => t.pc.toNat) = some 2147483649 := by decide
/-- V-B1: the greatest legal distance. -/
theorem test_jmpb_to_zero :
    afterStep (machineAt [0x05, 0x05, 0x05, 0x05, 0x08, 0x00] 4 false [(0, 6)]) (fun t => (t.pc, t.outcome)) =
      some (0, .continues) := by decide
/-- V-B2: the least distance that faults leaves `pc` at the jump. -/
theorem test_jmpb_underflow :
    afterStep (machineAt [0x05, 0x05, 0x05, 0x05, 0x08, 0x00] 4 false [(0, 7)]) (fun t => (t.pc, t.outcome)) =
      some (4, .programCounterUnderflow) := by decide

/-- The rows of 95_test_vectors.md 2.5 on which signed and unsigned order differ, `x0 = -1`, `x1 = 1`. -/
theorem test_comparisons_are_signed :
    [[0x09, 0x00, 0x01, 0xFF], [0x0A, 0x00, 0x01, 0xFF], [0x0B, 0x00, 0x01], [0x0C, 0x00, 0x01],
      [0x0D, 0x00, 0x01], [0x0E, 0x00, 0x01]].map
        (fun bytes => afterStep (machineAt bytes 0 false [(0, -1), (1, 1)]) (fun t => (t.equalFlag, t.pc.toNat))) =
      [some (false, 4), some (true, 4), some (false, 3), some (true, 3), some (false, 3), some (true, 3)] := by
  decide
/-- The row with equal operands, the flag set before. -/
theorem test_comparisons_of_equal_values :
    [[0x09, 0x00, 0x01, 0x00], [0x0A, 0x00, 0x01, 0x00], [0x0B, 0x00, 0x01], [0x0C, 0x00, 0x01],
      [0x0D, 0x00, 0x01], [0x0E, 0x00, 0x01]].map
        (fun bytes => afterStep (machineAt bytes 0 true [(0, 5), (1, 5)]) (fun t => t.equalFlag)) =
      [some true, some false, some false, some false, some true, some true] := by
  decide

/-- V-E3 and V-E4: the negative value is examined only when the jump is taken. -/
theorem test_jmpe :
    afterStep (machineAt [0x0F, 0x00] 0 true [(0, -5)]) (fun t => (t.pc, t.outcome)) =
        some (0, .negativeJumpOperand) ∧
      afterStep (machineAt [0x0F, 0x00] 0 false [(0, -5)]) (fun t => (t.pc, t.outcome)) = some (2, .continues) := by
  decide
/-- V-N1 and V-N2, at address 2. -/
theorem test_jneq :
    afterStep (machineAt [0x05, 0x05, 0x10, 0x04] 2 false [(4, 1)]) (fun t => (t.pc, t.outcome)) =
        some (1, .continues) ∧
      afterStep (machineAt [0x05, 0x05, 0x10, 0x04] 2 true [(4, 1)]) (fun t => (t.pc, t.outcome)) =
        some (4, .continues) := by
  decide

/-- V-H7, V-Q7: the end of the program. -/
theorem test_endOfProgram :
    afterStep (machineAt [] 0 false []) (fun t => (t.pc, t.outcome)) = some (0, .endOfProgram) ∧
      afterStep (machineAt [0x05] 1 false []) (fun t => (t.pc, t.outcome, t.diagnostics)) =
        some (1, .endOfProgram, []) := by
  decide
/-- V-Q1, V-Q3, V-Q4, V-Q5, V-Q6, V-E5: which fault is reported when several conditions hold. -/
theorem test_fault_priority :
    [([0x00, 0x20], 0), ([0x04, 0x00, 0x01, 0x20], 0), ([0x04, 0x00, 0x01, 0x02], 0), ([0x08, 0x20], 0),
      ([0x08, 0x00], 0), ([0x0F, 0x20], 0)].map
        (fun p : List Byte × Nat => afterStep (machineAt p.1 p.2 false [(0, -1)]) (fun t => t.outcome)) =
      [some .truncatedInstruction, some .registerIndexOutOfRange, some .divisionByZero,
        some .registerIndexOutOfRange, some .negativeJumpOperand, some .registerIndexOutOfRange] := by
  decide
/-- V-I1: a step after HLT changes nothing. -/
theorem test_step_after_hlt :
    core.run 2 (machineAt [0x05, 0x00, 0x00, 0x01] 0 false []) =
      core.run 1 (machineAt [0x05, 0x00, 0x00, 0x01] 0 false []) := by
  rfl
/-- V-B4: JMPB with distance 2 jumps to itself, so three units of fuel do not end the run (R228). -/
theorem test_runToHalt_without_end : (runToHalt 3 (machineAt [0x08, 0x00] 0 false [(0, 2)])).isNone = true := by decide

/-- The first step from reset, with nothing placed, ends the empty program. -/
theorem test_first_step_from_reset :
    afterStep State.reset (fun t => (t.outcome, t.launchWindow)) = some (.endOfProgram, false) := by decide
/-- A placed instruction runs as the first one after reset. -/
theorem test_placed_word_runs :
    afterStep (State.reset.withFetchWord 32 0xF4010000) (fun t => (t.reg 0, t.pc)) = some (500, 4) := by decide

/-! ## Witnesses: a state and operands that meet the hypotheses of a statement, at the boundaries of its clauses -/

theorem witness_StepKeepsTheInvariant :
    (machineAt [0x00, 0x00, 0x01, 0xF4] 0 false []).Inv ∧
      ∃ t, step (machineAt [0x00, 0x00, 0x01, 0xF4] 0 false []) = .next t := by
  exact ⟨by decide, _, rfl⟩
theorem witness_HostActionsKeepTheInvariant :
    (machineAt [0x05] 0 false []).programLegal ∧ State.reset.Inv ∧
      ∃ t, hostLoadProgram [0x05] State.reset = .next t := by
  exact ⟨by decide, by decide, _, rfl⟩
/-- Both clauses, at the greatest legal length and at the least illegal one. -/
theorem witness_LaunchSequenceLoadsTheProgram :
    (List.replicate (2 ^ 31) (0 : Byte)).length ≤ 2 ^ 31 ∧
      2 ^ 31 < (List.replicate (2 ^ 31 + 1) (0 : Byte)).length := by
  rw [List.length_replicate, List.length_replicate]; decide
theorem witness_HostWritesOnlyInTheLaunchWindow :
    State.reset.launchWindow = true ∧ ([0x05] : List Byte).length ≤ 2 ^ 31 ∧
      State.reset.closeLaunchWindow.launchWindow = false ∧ State.reset.runState = .running ∧
      (∃ t, step State.reset = .next t) ∧ ∃ t, step State.reset.closeLaunchWindow = .next t := by
  exact ⟨rfl, by decide, rfl, rfl, ⟨_, rfl⟩, _, rfl⟩
theorem witness_StepRunsTheDecodedInstruction :
    (machineAt [0x0B, 0x00, 0x01] 0 false []).runState = .running ∧
      decode (machineAt [0x0B, 0x00, 0x01] 0 false []).bytesAtPc = .ok (.gt 0 1, []) := by
  exact ⟨rfl, rfl⟩
theorem witness_StepRunsThePlacedWord : State.reset.prog.wf = true := by decide
theorem witness_StepInHaltedChangesNothing : (State.reset.endRun .halted).runState = .halted := rfl
/-- At `pc = L` and beyond it. -/
theorem witness_EndOfProgramStep :
    (machineAt [0x05] 1 false []).runState = .running ∧
      (machineAt [0x05] 1 false []).progLen ≤ (machineAt [0x05] 1 false []).pc.toNat ∧
      (machineAt [0x05] 9 false []).progLen ≤ (machineAt [0x05] 9 false []).pc.toNat := by
  decide
/-- A running machine that steps, with the last operand byte missing and with it there (R192, R200, R114, R199). -/
theorem witness_TruncatedExactlyWhenAnOperandByteIsMissing :
    (machineAt [0x0B, 0x00] 0 false []).runState = .running ∧
      afterStep (machineAt [0x0B, 0x00] 0 false []) (fun t => t.outcome) = some .truncatedInstruction ∧
      afterStep (machineAt [0x0B, 0x00, 0x01] 0 false []) (fun t => t.outcome) = some .continues := by
  decide
/-- Each row of R199, at states where the rows after it would hold too where they can (`x0 = -1`, `x1 = 3`): a latched
outcome, the end of the program, HLT and an illegal byte as the last byte, a truncated instruction with a bad index, a bad
destination with a zero divisor, a zero divisor, a negative and a too great distance back, and a completed instruction. -/
theorem witness_StepReportsTheOutcomeOfHighestPriority :
    ((machineAt [] 0 false []).endRun .divisionByZero ::
        [[], [0x05], [0xFE], [0x00, 0x20], [0x04, 0x00, 0x02, 0x20], [0x04, 0x00, 0x02, 0x02], [0x08, 0x00],
          [0x08, 0x01], [0x0F, 0x00]].map fun bytes => machineAt bytes 0 false [(0, -1), (1, 3)]).map
        (fun s => afterStep s (fun t => t.outcome)) =
      [some .divisionByZero, some .endOfProgram, some .halted, some .illegalOpcode, some .truncatedInstruction,
        some .registerIndexOutOfRange, some .divisionByZero, some .negativeJumpOperand,
        some .programCounterUnderflow, some .continues] := by
  decide
/-- At the greatest legal length. -/
theorem witness_PcFollowsTheTableWithoutWrapping :
    ({ machineAt [0x05] 0 false [] with progLen := 2 ^ 31 } : State).progLen ≤ 2 ^ 31 ∧
      ∃ t, step { machineAt [0x05] 0 false [] with progLen := 2 ^ 31 } = .next t := by
  exact ⟨by decide, _, rfl⟩
theorem witness_FaultsArePrecise :
    (machineAt [0x06, 0x20] 0 false []).runState = .running ∧
      afterStep (machineAt [0x06, 0x20] 0 false []) (fun t => t.outcome.isFault) = some true := by
  decide
theorem witness_DiagnosticsOnlyFromHltAndIllegalBytes :
    ∃ t, step (machineAt [0x05] 0 false []) = .next t := ⟨_, rfl⟩
theorem witness_NoStepWritesTheProgram :
    ∃ t, step (machineAt [0x00, 0x00, 0x00, 0x01] 0 false []) = .next t := ⟨_, rfl⟩
theorem witness_OnlyTheDestinationRegisterChanges :
    ∃ t, exec (.load 31 7) State.reset = .next t ∧ t.reg 31 ≠ State.reset.reg 31 := ⟨_, rfl, by decide⟩
theorem witness_OnlyComparisonsChangeEqualFlag :
    ∃ t, exec (.gte 0 1) State.reset = .next t ∧ t.equalFlag ≠ State.reset.equalFlag := ⟨_, rfl, by decide⟩
theorem witness_OnlyACompletedDivChangesRemainder :
    ∃ t, exec (.div 0 1 2) (machineAt [] 0 false [(0, 5), (1, 7)]) = .next t ∧
      t.remainder ≠ (machineAt [] 0 false [(0, 5), (1, 7)]).remainder := ⟨_, rfl, by decide⟩
theorem witness_RemainderInfluencesNothing : ∃ t, step (machineAt [0x08, 0x00] 0 false []) = .next t := ⟨_, rfl⟩
theorem witness_OnlyConditionalJumpsReadEqualFlag :
    (Instr.jmp 0).tag ≠ .jmpe ∧ (Instr.jmp 0).tag ≠ .jneq ∧ ∃ t, exec (.jmp 0) State.reset = .next t :=
  ⟨by decide, by decide, _, rfl⟩
theorem witness_TheFinalStateIsStable :
    ∃ t, core.run 1 State.reset = .next t ∧ t.runState = .halted := ⟨_, rfl, rfl⟩
/-- Field values 31 and 32 (R193), for a completed and for a faulting instruction. -/
theorem witness_RegisterIndexFaultExactly :
    (∃ t, exec (.load 31 0) State.reset = .next t ∧ t.outcome = .continues) ∧
      ∃ t, exec (.load 32 0) State.reset = .next t ∧ t.outcome = .registerIndexOutOfRange :=
  ⟨⟨_, rfl, rfl⟩, _, rfl, rfl⟩
theorem witness_DivisionByZeroFaultExactly :
    ∃ t, exec (.div 0 1 31) State.reset = .next t ∧ t.outcome = .divisionByZero := ⟨_, rfl, rfl⟩
/-- The least distance that faults, and the greatest that does not. -/
theorem witness_ProgramCounterUnderflowFaultExactly :
    (∃ t, exec (.jmpb 0) (machineAt [] 4 false [(0, 7)]) = .next t ∧ t.outcome = .programCounterUnderflow) ∧
      ∃ t, exec (.jmpb 0) (machineAt [] 4 false [(0, 6)]) = .next t ∧ t.outcome = .continues :=
  ⟨⟨_, rfl, rfl⟩, _, rfl, rfl⟩
theorem witness_NegativeJumpOperandFaultExactly :
    (∃ t, exec (.jmpe 0) (machineAt [] 0 true [(0, -1)]) = .next t ∧ t.outcome = .negativeJumpOperand) ∧
      ∃ t, exec (.jmpe 0) (machineAt [] 0 false [(0, -1)]) = .next t ∧ t.outcome = .continues :=
  ⟨⟨_, rfl, rfl⟩, _, rfl, rfl⟩
/-- A register field at 31 and at 32: for LOAD, and for one-operand, two-operand and three-operand forms. -/
theorem witness_register_fields :
    (31 : Byte).toNat = (31 : RegIdx).val ∧ 32 ≤ (32 : Byte).toNat ∧ 32 ≤ (255 : Byte).toNat := by decide
/-- The premises of `TruncatesAt`, one byte short, for lengths 4, 3 and 2. -/
theorem witness_TruncatesAt :
    (∀ p ∈ ([([0x00, 0x20, 0x00], 4), ([0x09, 0x00, 0x01], 4), ([0x0B, 0x00], 3), ([0x06], 2), ([0x10], 2)] :
        List (List Byte × Nat)),
      (machineAt p.1 0 false []).runState = .running ∧
        (machineAt p.1 0 false []).pc.toNat < (machineAt p.1 0 false []).progLen ∧
        (machineAt p.1 0 false []).prog.read (machineAt p.1 0 false []).pc.toNat = p.1.headD 0 ∧
        (machineAt p.1 0 false []).progLen < (machineAt p.1 0 false []).pc.toNat + p.2) := by
  decide
/-- DIV: a divisor that is not 0, and one that is. -/
theorem witness_DivWritesQuotientAndRemainder :
    ((machineAt [] 0 false [(1, -1)]).reg 1).toInt ≠ 0 ∧ ((machineAt [] 0 false []).reg 1).toInt = 0 := by decide
/-- Rows of R141: every pair of signs, and a dividend that is less than the divisor. -/
theorem witness_DivisionAtEverySign_ordinary :
    ([(7, 2), (-7, 2), (7, -2), (-7, -2), (-5, 7)] : List (Word × Word)).map
        (fun p => (((machineAt [] 0 false [(0, p.1), (1, p.2)]).reg 0).toInt,
          ((machineAt [] 0 false [(0, p.1), (1, p.2)]).reg 1).toInt)) =
      [(7, 2), (-7, 2), (7, -2), (-7, -2), (-5, 7)] := by
  decide
/-- The row of R141 that wraps, and the row with a zero divisor. -/
theorem witness_DivisionAtEverySign_corners :
    ((machineAt [] 0 false [(0, 0x80000000), (1, -1)]).reg 0).toInt = -2147483648 ∧
      ((machineAt [] 0 false [(0, 0x80000000), (1, -1)]).reg 1).toInt = -1 ∧
      ((machineAt [] 0 false [(0, 0x80000000)]).reg 1).toInt = 0 :=
  ⟨rfl, rfl, rfl⟩
theorem witness_HltEndsTheRun : ∃ t, exec .hlt State.reset = .next t ∧ t.outcome = .halted := ⟨_, rfl, rfl⟩
theorem witness_IllegalBytesEndTheRun : 17 ≤ (17 : Byte).toNat ∧ 17 ≤ (255 : Byte).toNat := by decide
/-- The operand of a jump, absolute or forward, at 0, at its greatest value and below 0. -/
theorem witness_jump_operands :
    0 ≤ ((machineAt [] 0 false [(3, 0)]).reg 3).toInt ∧
      0 ≤ ((machineAt [] 0 false [(3, 0x7FFFFFFF)]).reg 3).toInt ∧
      ((machineAt [] 0 false [(3, -1)]).reg 3).toInt < 0 := by
  decide
/-- JMPB at address 4: distances 6 and 7. -/
theorem witness_JmpbGoesBackward :
    ((machineAt [] 4 false [(0, 6)]).reg 0).toInt ≤ (machineAt [] 4 false [(0, 6)]).pc.toNat + 2 ∧
      ((machineAt [] 4 false [(0, 7)]).pc.toNat + 2 : Int) < ((machineAt [] 4 false [(0, 7)]).reg 0).toInt := by
  decide
/-- JMPE and JNEQ: both values of the flag, with the register's value at 0 and below 0. -/
theorem witness_conditional_jumps :
    (machineAt [] 0 true [(5, 0)]).equalFlag = true ∧ (machineAt [] 0 false [(5, 0)]).equalFlag = false ∧
      0 ≤ ((machineAt [] 0 true [(5, 0)]).reg 5).toInt ∧ ((machineAt [] 0 true [(5, -1)]).reg 5).toInt < 0 := by
  decide
theorem witness_DecoderBlockFunctionAndCode : (16 : Byte).toNat < 17 ∧ 17 ≤ (17 : Byte).toNat := by decide
theorem witness_DecodeUndoesEncode : (Instr.igl 17).encodable = true ∧ (Instr.load 255 0xFFFF).encodable = true := by
  decide
theorem witness_EncodeUndoesDecode : decode [0x0A, 0xFF, 0x00, 0x63, 0x05] = .ok (.neq 255 0 0x63, [0x05]) := by rfl
theorem witness_OpcodeByteDecidesTagAndLength :
    oplen (decodeTag 0x09) ≤ ([0x00, 0x01, 0x00] : List Byte).length ∧
      ([0x00, 0x01] : List Byte).length < oplen (decodeTag 0x09) := by
  decide

end Sys2Proof.Tests
end

section
/-! PROOFS. What an instruction can do to the state, said once (`Executes`), and that its effect does not depend on a
component it does not read (`ExecCongruence`). -/

namespace Sys2Proof

/-- The operand byte that names the register an instruction writes (41_executor_cycle.md R108). -/
def Instr.destination : Instr → Option Byte
  | .load rd _ => some rd
  | .add _ _ rd => some rd
  | .sub _ _ rd => some rd
  | .mul _ _ rd => some rd
  | .div _ _ rd => some rd
  | _ => none

/-- The six comparisons (46_compare.md R165). -/
def Instr.isComparison : Instr → Bool
  | .eq _ _ _ => true
  | .neq _ _ _ => true
  | .gt _ _ => true
  | .lt _ _ => true
  | .gte _ _ => true
  | .lte _ _ => true
  | _ => false

theorem Instr.destination_eq_some {i : Instr} {rd : Byte} (h : i.destination = some rd) :
    (∃ imm, i = .load rd imm) ∨
      ∃ rs1 rs2, i = .add rs1 rs2 rd ∨ i = .sub rs1 rs2 rd ∨ i = .mul rs1 rs2 rd ∨ i = .div rs1 rs2 rd := by
  cases i <;> simp_all [Instr.destination]

theorem Instr.isComparison_iff {i : Instr} :
    i.isComparison = true ↔
      (∃ ra rb pad, i = .eq ra rb pad ∨ i = .neq ra rb pad) ∨
        ∃ ra rb, i = .gt ra rb ∨ i = .lt ra rb ∨ i = .gte ra rb ∨ i = .lte ra rb := by
  cases i <;> simp [Instr.isComparison]

/-- The first register field of an instruction is the byte after its opcode byte. -/
theorem regFields_head_instrOf {t : Tag} {b0 b1 b2 b3 f : Byte}
    (h : (instrOf t b0 b1 b2 b3).regFields.head? = some f) : f = b1 := by
  cases t <;> simp_all [instrOf, Instr.regFields]

/-- The opcode byte and the instruction that a successful decoding gives. -/
theorem decode_cons_ok {b0 : Byte} {bs rest : List Byte} {i : Instr} (h : decode (b0 :: bs) = .ok (i, rest)) :
    i = instrOf (decodeTag b0) b0 (bs.getD 0 0) (bs.getD 1 0) (bs.getD 2 0) ∧
      oplen (decodeTag b0) ≤ bs.length := by
  obtain ⟨-, hd⟩ | ⟨hl, hd⟩ := decode_cons_cases b0 bs
  · simp [hd] at h
  · simp only [hd, Except.ok.injEq, Prod.mk.injEq] at h
    exact ⟨h.1.symm, hl⟩

/-- An instruction with a register field has an operand byte. -/
theorem oplen_tag_pos {i : Instr} {f : Byte} (h : i.regFields.head? = some f) : 0 < oplen i.tag := by
  cases i <;> simp_all [Instr.regFields, Instr.tag, oplen]

end Sys2Proof

namespace Sys2Proof.Machine

/-! ## The ways an instruction can end -/

/-- The ways an instruction can take a state to the next one. A fault leaves everything but the latched outcome; HLT and
an illegal byte end the run past their one byte; a completed instruction writes its destination, or the flag, or moves
`pc` alone. A jump's target is the one of 10_state.md R24 and lies less than 2^31 beyond the next instruction. -/
inductive Executes (s : State) : Instr → State → Prop where
  | faults {i : Instr} {f : Outcome} : f.isFault = true → Executes s i (s.raise f)
  | halts : Executes s .hlt (((s.setPc (s.pn .hlt)).emit .hltEncountered).terminate .halted)
  | illegal {byte : Byte} :
      Executes s (.igl byte) (((s.setPc (s.pn .igl)).emit .illegalOpcodeEncountered).terminate .illegalOpcode)
  | writes {i : Instr} {rd : Byte} {d : RegIdx} (v : Word) :
      i.destination = some rd → rd.toNat = d.val → Executes s i ((s.setReg d v).complete (s.pn i.tag))
  | divides {rs1 rs2 rd : Byte} {d : RegIdx} (q r : Word) :
      rd.toNat = d.val →
        Executes s (.div rs1 rs2 rd) (((s.setReg d q).setRemainder r).complete (s.pn .div))
  | compares {i : Instr} (b : Bool) :
      i.isComparison = true → Executes s i ((s.setEqualFlag b).complete (s.pn i.tag))
  | jumps {i : Instr} {rt : Byte} {j : RegIdx} {target : Nat} :
      i.regFields.head? = some rt → rt.toNat = j.val →
        (target : Int) = pcAfterInstr s.pc.toNat (s.reg j).toInt s.equalFlag i.tag →
        target < s.pn i.tag + 2 ^ 31 → Executes s i (s.complete target)

/-- A register's signed value is below 2^31. -/
theorem State.toInt_reg_lt (s : State) (j : RegIdx) : (s.reg j).toInt < 2 ^ 31 :=
  BitVec.toInt_lt

/-- ADD, SUB and MUL fault or write their destination. -/
theorem executes_arithWith (s : State) (f : Int → Int → Int) {i : Instr} {rs1 rs2 rd : Byte}
    (hi : i.destination = some rd) : Executes s i (arithWith f i.tag rs1 rs2 rd s) := by
  obtain ⟨_, _, d, -, -, hd, hk⟩ | ⟨-, hk⟩ := arithWith_cases f i.tag rs1 rs2 rd s
  · exact hk ▸ .writes _ hi hd
  · exact hk ▸ .faults rfl

/-- A comparison faults or writes the flag. -/
theorem executes_compareWith (s : State) (rel : Int → Int → Bool) {i : Instr} {ra rb : Byte}
    (hi : i.isComparison = true) : Executes s i (compareWith rel i.tag ra rb s) := by
  obtain ⟨_, _, -, -, hk⟩ | ⟨-, hk⟩ := compareWith_cases rel i.tag ra rb s
  · exact hk ▸ .compares _ hi
  · exact hk ▸ .faults rfl

/-- LOAD faults or writes its destination. -/
theorem executes_load (s : State) (rd : Byte) (imm : Imm) :
    Executes s (.load rd imm) (withReg rd s fun d => (s.setReg d (zext32 imm)).complete (s.pn .load)) := by
  obtain ⟨d, hd, hk⟩ | ⟨-, hk⟩ := withReg_cases rd s fun d => (s.setReg d (zext32 imm)).complete (s.pn .load)
  · exact hk ▸ .writes _ rfl hd
  · exact hk ▸ .faults rfl

/-- DIV faults, or writes its destination and `remainder`. -/
theorem executes_div (s : State) (rs1 rs2 rd : Byte) {t : State} (h : execDiv rs1 rs2 rd s = .next t) :
    Executes s (.div rs1 rs2 rd) t := by
  obtain rfl := Host.Outcome.next.inj h
  obtain ⟨i, j, d, -, -, hd, hk⟩ | ⟨-, hk⟩ := withReg3_cases rs1 rs2 rd s fun i j d =>
    if s.sreg j = 0 then s.raise .divisionByZero
    else
      ((s.setReg d (wrap32 (truncQuot (s.sreg i) (s.sreg j)))).setRemainder
        (wrap32 (truncRem (s.sreg i) (s.sreg j)))).complete (s.pn .div)
  · rw [hk]
    split
    · exact .faults rfl
    · exact .divides _ _ hd
  · exact hk ▸ .faults rfl

/-- A jump whose operand is checked first and whose meaning `k`, at a distance or target `v`, faults or goes where the
table says. -/
theorem executes_jump {s : State} {i : Instr} {rt : Byte} {k : Nat → State}
    (hk : ∀ (j : RegIdx) (v : Nat), rt.toNat = j.val → (s.reg j).toInt = v → Executes s i (k v)) :
    Executes s i (withReg rt s fun j => withJumpOperand j s k) := by
  obtain ⟨j, hj, h1⟩ | ⟨-, h1⟩ := withReg_cases rt s fun j => withJumpOperand j s k
  · rw [h1]
    obtain ⟨-, h2⟩ | ⟨v, hv, h2⟩ := withJumpOperand_cases j s k
    · exact h2 ▸ .faults rfl
    · exact h2 ▸ hk j v hj hv
  · exact h1 ▸ .faults rfl

/-- JMP goes to the register's value. -/
theorem executes_jmp (s : State) (rt : Byte) :
    Executes s (.jmp rt) (withReg rt s fun j => withJumpOperand j s fun v => s.complete v) :=
  executes_jump fun j v hj hv => by
    have hlt := s.toInt_reg_lt j
    exact .jumps rfl hj (by simp [pcAfterInstr, Instr.tag, hv]) (by omega)

/-- JMPF goes forward by the register's value. -/
theorem executes_jmpf (s : State) (rt : Byte) :
    Executes s (.jmpf rt) (withReg rt s fun j => withJumpOperand j s fun v => s.complete (s.pn .jmpf + v)) :=
  executes_jump fun j v hj hv => by
    have hlt := s.toInt_reg_lt j
    exact .jumps rfl hj (by simp [pcAfterInstr, Instr.tag, oplen, hv]; omega) (by simp only [Instr.tag]; omega)

/-- JMPB faults or goes backward by the register's value. -/
theorem executes_jmpb (s : State) (rt : Byte) :
    Executes s (.jmpb rt) (withReg rt s fun j => withJumpOperand j s fun v =>
      if s.pn .jmpb < v then s.raise .programCounterUnderflow else s.complete (s.pn .jmpb - v)) :=
  executes_jump fun j v hj hv => by
    split
    next => exact .faults rfl
    next hle =>
      have hpn : s.pn .jmpb = s.pc.toNat + 2 := rfl
      refine .jumps rfl hj ?_ (by simp only [Instr.tag]; omega)
      simp only [pcAfterInstr, Instr.tag, hv]
      omega

/-- A conditional jump faults, goes to the register's value or moves to the next instruction, as the table says for its
condition. -/
theorem executes_condJump (s : State) (taken : Bool) {i : Instr} {rt : Byte} (hi : i.regFields.head? = some rt)
    (htaken : taken = true → ∀ v, pcAfterInstr s.pc.toNat v s.equalFlag i.tag = v)
    (hnot : taken = false → ∀ v, pcAfterInstr s.pc.toNat v s.equalFlag i.tag = s.pn i.tag) :
    Executes s i (condJump taken i.tag rt s) := by
  obtain ⟨-, hk⟩ | ⟨j, hj, ⟨ht, hk⟩ | ⟨-, -, hk⟩ | ⟨v, ht, hv, hk⟩⟩ := condJump_cases taken i.tag rt s
  · exact hk ▸ .faults rfl
  · exact hk ▸ .jumps hi hj (hnot ht _).symm (by omega)
  · exact hk ▸ .faults rfl
  · have hlt := s.toInt_reg_lt j
    exact hk ▸ .jumps hi hj ((htaken ht _).trans hv).symm (by omega)

/-- All that an instruction can do. -/
theorem exec_executes {i : Instr} {s t : State} (h : exec i s = .next t) : Executes s i t := by
  cases i with
  | load rd imm => exact Host.Outcome.next.inj h ▸ executes_load s rd imm
  | add rs1 rs2 rd => exact Host.Outcome.next.inj h ▸ executes_arithWith s _ (i := .add rs1 rs2 rd) rfl
  | sub rs1 rs2 rd => exact Host.Outcome.next.inj h ▸ executes_arithWith s _ (i := .sub rs1 rs2 rd) rfl
  | mul rs1 rs2 rd => exact Host.Outcome.next.inj h ▸ executes_arithWith s _ (i := .mul rs1 rs2 rd) rfl
  | div rs1 rs2 rd => exact executes_div s rs1 rs2 rd h
  | hlt => exact Host.Outcome.next.inj h ▸ .halts
  | igl byte => exact Host.Outcome.next.inj h ▸ .illegal
  | jmp rt => exact Host.Outcome.next.inj h ▸ executes_jmp s rt
  | jmpf rt => exact Host.Outcome.next.inj h ▸ executes_jmpf s rt
  | jmpb rt => exact Host.Outcome.next.inj h ▸ executes_jmpb s rt
  | eq ra rb pad => exact Host.Outcome.next.inj h ▸ executes_compareWith s _ (i := .eq ra rb pad) rfl
  | neq ra rb pad => exact Host.Outcome.next.inj h ▸ executes_compareWith s _ (i := .neq ra rb pad) rfl
  | gt ra rb => exact Host.Outcome.next.inj h ▸ executes_compareWith s _ (i := .gt ra rb) rfl
  | lt ra rb => exact Host.Outcome.next.inj h ▸ executes_compareWith s _ (i := .lt ra rb) rfl
  | gte ra rb => exact Host.Outcome.next.inj h ▸ executes_compareWith s _ (i := .gte ra rb) rfl
  | lte ra rb => exact Host.Outcome.next.inj h ▸ executes_compareWith s _ (i := .lte ra rb) rfl
  | jmpe rt =>
    exact Host.Outcome.next.inj h ▸ executes_condJump s s.equalFlag (i := .jmpe rt) rfl
      (fun ht _ => by simp [pcAfterInstr, Instr.tag, ht])
      (fun ht _ => by simp [pcAfterInstr, Instr.tag, oplen, ht]; omega)
  | jneq rt =>
    exact Host.Outcome.next.inj h ▸ executes_condJump s (!s.equalFlag) (i := .jneq rt) rfl
      (fun ht _ => by simp_all [pcAfterInstr, Instr.tag])
      (fun ht _ => by simp_all [pcAfterInstr, Instr.tag, oplen]; omega)

/-! ## What every instruction keeps -/

section
variable {s t : State} {i : Instr}

/-- No instruction writes the program buffer, `L` or the launch window. -/
theorem Executes.frame (h : Executes s i t) :
    t.prog = s.prog ∧ t.progLen = s.progLen ∧ t.launchWindow = s.launchWindow := by
  cases h <;> exact ⟨rfl, rfl, rfl⟩

/-- A fault emits no diagnostic event (41_executor_cycle.md R114). -/
theorem Outcome.diagnostics_of_isFault {f : Outcome} (h : f.isFault = true) : f.diagnostics = [] := by
  cases f <;> simp_all [Outcome.isFault, Outcome.diagnostics]

theorem Outcome.ne_continues_of_isFault {f : Outcome} (h : f.isFault = true) : f ≠ .continues := by
  rintro rfl
  cases h

/-- An instruction goes on with `Continue`, or ends the run with another outcome and that outcome's events. -/
theorem Executes.continues_or_ends (h : Executes s i t) :
    (t.runState = s.runState ∧ t.outcome = .continues ∧ t.diagnostics = s.diagnostics) ∨
      (t.runState = .halted ∧ t.outcome ≠ .continues ∧ t.diagnostics = s.diagnostics ++ t.outcome.diagnostics) := by
  cases h with
  | faults hf =>
    exact .inr ⟨rfl, Outcome.ne_continues_of_isFault hf, by simp [Outcome.diagnostics_of_isFault hf]⟩
  | halts => exact .inr ⟨rfl, by simp, rfl⟩
  | illegal => exact .inr ⟨rfl, by simp, rfl⟩
  | writes => exact .inl ⟨rfl, rfl, rfl⟩
  | divides => exact .inl ⟨rfl, rfl, rfl⟩
  | compares => exact .inl ⟨rfl, rfl, rfl⟩
  | jumps => exact .inl ⟨rfl, rfl, rfl⟩

/-- A register that an instruction changes is its destination. -/
theorem Executes.destination_of_reg_ne (h : Executes s i t) {j : RegIdx} (hj : t.reg j ≠ s.reg j) :
    ∃ rd, i.destination = some rd ∧ rd.toNat = j.val := by
  cases h with
  | @writes _ rd d v hi hd =>
    have hdj : d = j := by
      by_contra hne
      simp [hne] at hj
    exact ⟨rd, hi, hdj ▸ hd⟩
  | @divides rs1 rs2 rd d q r hd =>
    have hdj : d = j := by
      by_contra hne
      simp [hne] at hj
    exact ⟨rd, rfl, hdj ▸ hd⟩
  | _ => simp at hj

/-- An instruction changes at most one register. -/
theorem Executes.reg_eq_of_ne (h : Executes s i t) : ∃ d : RegIdx, ∀ j, j ≠ d → t.reg j = s.reg j := by
  by_cases hall : ∀ j, t.reg j = s.reg j
  · exact ⟨0, fun j _ => hall j⟩
  · obtain ⟨d, hd⟩ := not_forall.mp hall
    obtain ⟨rd, hrd, hval⟩ := h.destination_of_reg_ne hd
    refine ⟨d, fun j hne => by_contra fun hj => hne ?_⟩
    obtain ⟨rd', hrd', hval'⟩ := h.destination_of_reg_ne hj
    obtain rfl := Option.some.inj (hrd.symm.trans hrd')
    exact Fin.ext (hval'.symm.trans hval)

/-- `equal_flag` changes only by a comparison that completes. -/
theorem Executes.isComparison_of_equalFlag_ne (h : Executes s i t) (hne : t.equalFlag ≠ s.equalFlag) :
    t.outcome = .continues ∧ i.isComparison = true := by
  cases h with
  | compares b hi => exact ⟨rfl, hi⟩
  | _ => simp at hne

/-- `remainder` changes only by a DIV that completes. -/
theorem Executes.eq_div_of_remainder_ne (h : Executes s i t) (hne : t.remainder ≠ s.remainder) :
    t.outcome = .continues ∧ ∃ rs1 rs2 rd, i = .div rs1 rs2 rd := by
  cases h with
  | divides => exact ⟨rfl, _, _, _, rfl⟩
  | _ => simp at hne

end

/-! ## Where an instruction leaves `pc` -/

/-- The value of the register an operand byte names. -/
theorem State.valueOf_of_eq {b : Byte} {j : RegIdx} (h : b.toNat = j.val) (s : State) :
    s.valueOf b = (s.reg j).toInt := by
  simp [State.valueOf, State.reg, h]

/-- A completed instruction that does not jump moves `pc` past itself. -/
theorem pcAfterInstr_of_not_taken {e : Bool} {t : Tag} (h : jumpTaken e t = false) (p0 v : Int) :
    pcAfterInstr p0 v e t = p0 + 1 + oplen t := by
  cases t <;> simp_all [pcAfterInstr, jumpTaken, oplen] <;> omega

theorem jumpTaken_of_destination {i : Instr} {rd : Byte} (h : i.destination = some rd) (e : Bool) :
    jumpTaken e i.tag = false := by
  cases i <;> simp_all [Instr.destination, Instr.tag, jumpTaken]

theorem jumpTaken_of_isComparison {i : Instr} (h : i.isComparison = true) (e : Bool) :
    jumpTaken e i.tag = false := by
  cases i <;> simp_all [Instr.isComparison, Instr.tag, jumpTaken]

/-- The table of 10_state.md R24 for a machine that is halted. -/
theorem pcByTable_of_halted {s : State} (hr : s.runState = .halted) (o : Outcome) :
    pcByTable s o = s.pc.toNat :=
  if_pos hr

/-- The table of 10_state.md R24 for a fault. -/
theorem pcByTable_of_isFault {f : Outcome} (h : f.isFault = true) (s : State) : pcByTable s f = s.pc.toNat := by
  cases f <;> simp_all [Outcome.isFault, pcByTable]

/-- The table of 10_state.md R24 for the end of the program. -/
theorem pcByTable_endOfProgram (s : State) : pcByTable s .endOfProgram = s.pc.toNat :=
  ite_self _

/-- The table of 10_state.md R24 for HLT and an illegal byte. -/
theorem pcByTable_of_ends {s : State} (hr : s.runState = .running) {o : Outcome}
    (h : o = .halted ∨ o = .illegalOpcode) : pcByTable s o = s.pc.toNat + 1 := by
  obtain rfl | rfl := h <;> simp [pcByTable, hr]

/-- The table of 10_state.md R24 for a completed instruction. -/
theorem pcByTable_continues {s : State} (hr : s.runState = .running) :
    pcByTable s .continues =
      pcAfterInstr s.pc.toNat (s.valueOf (s.instrByte 1)) s.equalFlag (decodeTag (s.instrByte 0)) := by
  simp [pcByTable, hr]

/-- A new `pc` below 2^32 is held as it is. -/
theorem State.complete_pc_toNat (s : State) {target : Nat} (h : target < 2 ^ 32) :
    (s.complete target).pc.toNat = target := by
  rw [State.complete_pc, BitVec.toNat_ofNat, Nat.mod_eq_of_lt h]

/-- The instruction decoded at `pc` has the tag of its first byte, and its first register field is its second byte. -/
theorem decode_bytesAtPc_ok {s : State} (hlt : s.pc.toNat < s.progLen) {i : Instr} {rest : List Byte}
    (h : decode s.bytesAtPc = .ok (i, rest)) :
    i.tag = decodeTag (s.instrByte 0) ∧ ∀ f, i.regFields.head? = some f → f = s.instrByte 1 := by
  rw [bytesAtPc_eq s hlt] at h
  obtain ⟨rfl, hlen⟩ := decode_cons_ok h
  refine ⟨tag_instrOf .., fun f hf => ?_⟩
  have hpos := oplen_tag_pos hf
  rw [tag_instrOf] at hpos
  rw [regFields_head_instrOf hf, State.instrByte, List.getD_eq_getElem _ _ (by omega)]
  simp

/-- Where an instruction at `pc`, ending no further than 2^31, leaves `pc`: as the table says, with nothing reduced. -/
theorem Executes.pc_eq_pcByTable {s t : State} {i : Instr} (h : Executes s i t) (hr : s.runState = .running)
    (htag : i.tag = decodeTag (s.instrByte 0)) (hfield : ∀ f, i.regFields.head? = some f → f = s.instrByte 1)
    (hpn : s.pn i.tag ≤ 2 ^ 31) : (t.pc.toNat : Int) = pcByTable s t.outcome := by
  have hpc : s.pn i.tag = s.pc.toNat + 1 + oplen i.tag := rfl
  have hend (o : Outcome) (ho : o = .halted ∨ o = .illegalOpcode) :
      ((BitVec.ofNat 32 (s.pc.toNat + 1)).toNat : Int) = pcByTable s o := by
    rw [BitVec.toNat_ofNat, Nat.mod_eq_of_lt (by omega), pcByTable_of_ends hr ho]
    rfl
  have hnext (e : jumpTaken s.equalFlag i.tag = false) (u : State) :
      ((u.complete (s.pn i.tag)).pc.toNat : Int) = pcByTable s .continues := by
    rw [State.complete_pc_toNat u (by omega), pcByTable_continues hr, ← htag,
      pcAfterInstr_of_not_taken e]
    push_cast
    rfl
  cases h with
  | faults hf => rw [State.raise_outcome, pcByTable_of_isFault hf, State.raise_pc]
  | halts => exact hend .halted (.inl rfl)
  | illegal => exact hend .illegalOpcode (.inr rfl)
  | writes v hi => exact hnext (jumpTaken_of_destination hi _) _
  | divides => exact hnext rfl _
  | compares b hi => exact hnext (jumpTaken_of_isComparison hi _) _
  | jumps hrt hj htarget hlt =>
    rw [State.complete_outcome, State.complete_pc_toNat s (by omega), pcByTable_continues hr, ← htag,
      ← hfield _ hrt, State.valueOf_of_eq hj, htarget]

/-! ## The step, by what it finds at `pc` -/

theorem step_of_halted {s : State} (hr : s.runState = .halted) : step s = .next s := by
  simp [step, fetchPhase, hr]

theorem step_of_end {s : State} (hr : s.runState = .running) (h : s.progLen ≤ s.pc.toNat) :
    step s = .next (s.closeLaunchWindow.terminate .endOfProgram) := by
  simp [step, fetchPhase, hr, h]

/-- A step at bytes that hold an instruction runs it. -/
theorem step_of_decode_ok {s : State} (hr : s.runState = .running) (hlt : s.pc.toNat < s.progLen) {i : Instr}
    {rest : List Byte} (hd : decode s.bytesAtPc = .ok (i, rest)) : step s = exec i s.closeLaunchWindow := by
  simp [step, fetchPhase, hr, not_le.mpr hlt, fetchInstr_eq s hlt, hd, Except.map]

/-- A step at an instruction that lacks an operand byte. -/
theorem step_of_truncated {s : State} (hr : s.runState = .running) (hlt : s.pc.toNat < s.progLen)
    (hl : s.progLen < s.pn (decodeTag (s.prog.read s.pc.toNat))) :
    step s = .next (s.closeLaunchWindow.raise .truncatedInstruction) := by
  obtain ⟨-, hd⟩ | ⟨hle, -⟩ := decode_bytesAtPc_cases s hlt
  · simp [step, fetchPhase, hr, not_le.mpr hlt, fetchInstr_eq s hlt, hd, Except.map]
  · exact absurd hl (not_lt.mpr hle)

/-- What a step of a running machine does to the components that no instruction computes with: the program stays, the
launch window closes, and the step goes on or ends the run with its outcome's events. -/
theorem step_of_running {s t : State} (hr : s.runState = .running) (h : step s = .next t) :
    (t.prog = s.prog ∧ t.progLen = s.progLen ∧ t.launchWindow = false) ∧
      ((t.runState = .running ∧ t.outcome = .continues ∧ t.diagnostics = s.diagnostics) ∨
        (t.runState = .halted ∧ t.outcome ≠ .continues ∧
          t.diagnostics = s.diagnostics ++ t.outcome.diagnostics)) := by
  obtain ⟨hh, -⟩ | ⟨-, -, hk⟩ | ⟨-, -, -, hk⟩ | ⟨-, -, -, i, -, -, -, hk⟩ := step_cases s
  · cases hr.symm.trans hh
  · obtain rfl := Host.Outcome.next.inj (hk.symm.trans h)
    exact ⟨⟨rfl, rfl, rfl⟩, .inr ⟨rfl, by simp, by simp [Outcome.diagnostics]⟩⟩
  · obtain rfl := Host.Outcome.next.inj (hk.symm.trans h)
    exact ⟨⟨rfl, rfl, rfl⟩, .inr ⟨rfl, by simp, by simp [Outcome.diagnostics]⟩⟩
  · have hx := exec_executes (hk.symm.trans h)
    refine ⟨hx.frame, ?_⟩
    simpa only [State.closeLaunchWindow_runState, State.closeLaunchWindow_diagnostics, hr]
      using hx.continues_or_ends

/-! ## Components an instruction does not read -/

/-- A relation of states that forces the same registers and the same `pc` and that every update of the state keeps: two
states it relates are alike to every instruction but those that read the flag. -/
structure ExecCongruence (R : State → State → Prop) : Prop where
  reg_eq : ∀ {s s'}, R s s' → ∀ i, s'.reg i = s.reg i
  pc_eq : ∀ {s s'}, R s s' → s'.pc = s.pc
  setReg : ∀ {s s'}, R s s' → ∀ i v, R (s.setReg i v) (s'.setReg i v)
  setRemainder : ∀ {s s'}, R s s' → ∀ v, R (s.setRemainder v) (s'.setRemainder v)
  setEqualFlag : ∀ {s s'}, R s s' → ∀ b, R (s.setEqualFlag b) (s'.setEqualFlag b)
  setPc : ∀ {s s'}, R s s' → ∀ a, R (s.setPc a) (s'.setPc a)
  complete : ∀ {s s'}, R s s' → ∀ a, R (s.complete a) (s'.complete a)
  endRun : ∀ {s s'}, R s s' → ∀ o, R (s.endRun o) (s'.endRun o)
  emit : ∀ {s s'}, R s s' → ∀ d, R (s.emit d) (s'.emit d)

namespace ExecCongruence

variable {R : State → State → Prop} {s s' : State}

theorem withReg (hR : ExecCongruence R) (h : R s s') (b : Byte) {k k' : RegIdx → State}
    (hk : ∀ i, R (k i) (k' i)) : R (Machine.withReg b s k) (Machine.withReg b s' k') := by
  obtain ⟨i, hi, hw⟩ | ⟨hb, hw⟩ := withReg_cases b s k
  · rw [hw, withReg_of_eq hi]
    exact hk i
  · rw [hw, withReg_of_le hb]
    exact hR.endRun h _

theorem withReg2 (hR : ExecCongruence R) (h : R s s') (b1 b2 : Byte) {k k' : RegIdx → RegIdx → State}
    (hk : ∀ i j, R (k i j) (k' i j)) : R (Machine.withReg2 b1 b2 s k) (Machine.withReg2 b1 b2 s' k') :=
  hR.withReg h b1 fun i => hR.withReg h b2 (hk i)

theorem withReg3 (hR : ExecCongruence R) (h : R s s') (b1 b2 b3 : Byte)
    {k k' : RegIdx → RegIdx → RegIdx → State} (hk : ∀ i j d, R (k i j d) (k' i j d)) :
    R (Machine.withReg3 b1 b2 b3 s k) (Machine.withReg3 b1 b2 b3 s' k') :=
  hR.withReg2 h b1 b2 fun i j => hR.withReg h b3 (hk i j)

theorem withJumpOperand (hR : ExecCongruence R) (h : R s s') (i : RegIdx) {k k' : Nat → State}
    (hk : ∀ v, R (k v) (k' v)) : R (Machine.withJumpOperand i s k) (Machine.withJumpOperand i s' k') := by
  have hv := hR.reg_eq h i
  obtain ⟨hneg, hw⟩ | ⟨v, hpos, hw⟩ := withJumpOperand_cases i s k
  · rw [hw, withJumpOperand_of_neg (hv ▸ hneg)]
    exact hR.endRun h _
  · rw [hw, withJumpOperand_of_nonneg (by rw [hv]; omega), hv, hpos]
    exact hk v

theorem arithWith (hR : ExecCongruence R) (h : R s s') (f : Int → Int → Int) (t : Tag) (rs1 rs2 rd : Byte) :
    R (Machine.arithWith f t rs1 rs2 rd s) (Machine.arithWith f t rs1 rs2 rd s') :=
  hR.withReg3 h rs1 rs2 rd fun i j d => by
    simp only [State.sreg, State.pn, hR.reg_eq h, hR.pc_eq h]
    exact hR.complete (hR.setReg h _ _) _

theorem compareWith (hR : ExecCongruence R) (h : R s s') (rel : Int → Int → Bool) (t : Tag) (ra rb : Byte) :
    R (Machine.compareWith rel t ra rb s) (Machine.compareWith rel t ra rb s') :=
  hR.withReg2 h ra rb fun i j => by
    simp only [State.sreg, State.pn, hR.reg_eq h, hR.pc_eq h]
    exact hR.complete (hR.setEqualFlag h _) _

theorem condJump (hR : ExecCongruence R) (h : R s s') (taken : Bool) (t : Tag) (rt : Byte) :
    R (Machine.condJump taken t rt s) (Machine.condJump taken t rt s') :=
  hR.withReg h rt fun i => by
    cases taken with
    | true => exact hR.withJumpOperand h i fun v => hR.complete h v
    | false =>
      simp only [State.pn, hR.pc_eq h]
      exact hR.complete h _

/-- An instruction takes two related states to related states; one that reads the flag, if they agree in it. -/
theorem exec (hR : ExecCongruence R) (h : R s s') (i : Instr)
    (hflag : i.tag = .jmpe ∨ i.tag = .jneq → s'.equalFlag = s.equalFlag) :
    ∃ t t', Machine.exec i s = .next t ∧ Machine.exec i s' = .next t' ∧ R t t' := by
  have hpc := hR.pc_eq h
  cases i with
  | load rd imm =>
    refine ⟨_, _, rfl, rfl, hR.withReg h rd fun d => ?_⟩
    simp only [State.pn, hpc]
    exact hR.complete (hR.setReg h _ _) _
  | add rs1 rs2 rd => exact ⟨_, _, rfl, rfl, hR.arithWith h _ _ rs1 rs2 rd⟩
  | sub rs1 rs2 rd => exact ⟨_, _, rfl, rfl, hR.arithWith h _ _ rs1 rs2 rd⟩
  | mul rs1 rs2 rd => exact ⟨_, _, rfl, rfl, hR.arithWith h _ _ rs1 rs2 rd⟩
  | div rs1 rs2 rd =>
    refine ⟨_, _, rfl, rfl, hR.withReg3 h rs1 rs2 rd fun i j d => ?_⟩
    simp only [State.sreg, State.pn, hR.reg_eq h, hpc]
    split
    · exact hR.endRun h _
    · exact hR.complete (hR.setRemainder (hR.setReg h _ _) _) _
  | hlt =>
    refine ⟨_, _, rfl, rfl, ?_⟩
    simp only [State.pn, hpc]
    exact hR.endRun (hR.emit (hR.setPc h _) _) _
  | igl byte =>
    refine ⟨_, _, rfl, rfl, ?_⟩
    simp only [State.pn, hpc]
    exact hR.endRun (hR.emit (hR.setPc h _) _) _
  | jmp rt =>
    exact ⟨_, _, rfl, rfl, hR.withReg h rt fun i => hR.withJumpOperand h i fun v => hR.complete h v⟩
  | jmpf rt =>
    refine ⟨_, _, rfl, rfl, hR.withReg h rt fun i => hR.withJumpOperand h i fun v => ?_⟩
    simp only [State.pn, hpc]
    exact hR.complete h _
  | jmpb rt =>
    refine ⟨_, _, rfl, rfl, hR.withReg h rt fun i => hR.withJumpOperand h i fun v => ?_⟩
    simp only [State.pn, hpc]
    split
    · exact hR.endRun h _
    · exact hR.complete h _
  | eq ra rb pad => exact ⟨_, _, rfl, rfl, hR.compareWith h _ _ ra rb⟩
  | neq ra rb pad => exact ⟨_, _, rfl, rfl, hR.compareWith h _ _ ra rb⟩
  | gt ra rb => exact ⟨_, _, rfl, rfl, hR.compareWith h _ _ ra rb⟩
  | lt ra rb => exact ⟨_, _, rfl, rfl, hR.compareWith h _ _ ra rb⟩
  | gte ra rb => exact ⟨_, _, rfl, rfl, hR.compareWith h _ _ ra rb⟩
  | lte ra rb => exact ⟨_, _, rfl, rfl, hR.compareWith h _ _ ra rb⟩
  | jmpe rt =>
    refine ⟨_, _, rfl, rfl, ?_⟩
    rw [hflag (.inl rfl)]
    exact hR.condJump h _ _ rt
  | jneq rt =>
    refine ⟨_, _, rfl, rfl, ?_⟩
    rw [hflag (.inr rfl)]
    exact hR.condJump h _ _ rt

end ExecCongruence

/-- Two states that differ in `remainder` at most. -/
def DifferInRemainder (s s' : State) : Prop :=
  ∃ w, s' = s.setRemainder w

/-- Two states that differ in `equal_flag` at most. -/
def DifferInEqualFlag (s s' : State) : Prop :=
  ∃ c, s' = s.setEqualFlag c

theorem execCongruence_differInRemainder : ExecCongruence DifferInRemainder where
  reg_eq := fun ⟨_, h⟩ _ => h ▸ rfl
  pc_eq := fun ⟨_, h⟩ => h ▸ rfl
  setReg := fun ⟨w, h⟩ _ _ => ⟨w, h ▸ rfl⟩
  setRemainder := fun ⟨_, h⟩ v => ⟨v, h ▸ rfl⟩
  setEqualFlag := fun ⟨w, h⟩ _ => ⟨w, h ▸ rfl⟩
  setPc := fun ⟨w, h⟩ _ => ⟨w, h ▸ rfl⟩
  complete := fun ⟨w, h⟩ _ => ⟨w, h ▸ rfl⟩
  endRun := fun ⟨w, h⟩ _ => ⟨w, h ▸ rfl⟩
  emit := fun ⟨w, h⟩ _ => ⟨w, h ▸ rfl⟩

theorem execCongruence_differInEqualFlag : ExecCongruence DifferInEqualFlag where
  reg_eq := fun ⟨_, h⟩ _ => h ▸ rfl
  pc_eq := fun ⟨_, h⟩ => h ▸ rfl
  setReg := fun ⟨c, h⟩ _ _ => ⟨c, h ▸ rfl⟩
  setRemainder := fun ⟨c, h⟩ _ => ⟨c, h ▸ rfl⟩
  setEqualFlag := fun ⟨_, h⟩ b => ⟨b, h ▸ rfl⟩
  setPc := fun ⟨c, h⟩ _ => ⟨c, h ▸ rfl⟩
  complete := fun ⟨c, h⟩ _ => ⟨c, h ▸ rfl⟩
  endRun := fun ⟨c, h⟩ _ => ⟨c, h ▸ rfl⟩
  emit := fun ⟨c, h⟩ _ => ⟨c, h ▸ rfl⟩

/-- A step from another value of `remainder` fetches the same instruction, and so ends the same but for `remainder`. -/
theorem step_setRemainder {s t : State} (h : step s = .next t) (v : Word) :
    ∃ t', step (s.setRemainder v) = .next t' ∧ DifferInRemainder t t' := by
  obtain ⟨hr, hk⟩ | ⟨hr, hp, hk⟩ | ⟨hr, hlt, hl, hk⟩ | ⟨hr, hlt, -, i, rest, hd, -, hk⟩ := step_cases s
  · obtain rfl := Host.Outcome.next.inj (hk.symm.trans h)
    exact ⟨_, step_of_halted hr, v, rfl⟩
  · obtain rfl := Host.Outcome.next.inj (hk.symm.trans h)
    exact ⟨_, step_of_end hr hp, v, rfl⟩
  · obtain rfl := Host.Outcome.next.inj (hk.symm.trans h)
    exact ⟨_, step_of_truncated hr hlt hl, v, rfl⟩
  · have hrel : DifferInRemainder s.closeLaunchWindow (s.setRemainder v).closeLaunchWindow := ⟨v, rfl⟩
    obtain ⟨u, u', hu, hu', huu⟩ := execCongruence_differInRemainder.exec hrel i fun _ => rfl
    obtain rfl := Host.Outcome.next.inj (hu.symm.trans (hk.symm.trans h))
    exact ⟨u', (step_of_decode_ok (s := s.setRemainder v) hr hlt hd).trans hu', huu⟩

/-! ## STATUS -/

/-- Bits 3 to 0 of STATUS. -/
theorem State.status_low (s : State) : s.status.extractLsb' 0 4 = outcomeCode s.outcome :=
  BitVec.extractLsb'_append_eq_right

/-- STATUS of a machine that is running with outcome `Continue`. -/
theorem State.status_eq_zero {s : State} (hr : s.runState = .running) (ho : s.outcome = .continues) :
    s.status = 0 := by
  rw [State.status, hr, ho]
  rfl

/-- Bit 4 of STATUS. -/
theorem State.status_bit4 (s : State) : s.status.getLsbD 4 = true ↔ s.runState = .halted := by
  rw [State.status, BitVec.getLsbD_append]
  cases s.runState <;> simp [runStateBit]

end Sys2Proof.Machine

open Sys2Proof Sys2Proof.Machine

/-- Settles O3: an instruction keeps the program and closes the window, and sets `run_state`, `outcome` and the events
together. -/
theorem stepKeepsTheInvariant : Obligations.StepKeepsTheInvariant := by
  rintro s t ⟨hstatus, ⟨hlen, hwf, hbelow⟩, hwindow, hdiag⟩ h
  cases hr : s.runState with
  | halted =>
    obtain rfl := Host.Outcome.next.inj ((step_of_halted hr).symm.trans h)
    exact ⟨hstatus, ⟨hlen, hwf, hbelow⟩, hwindow, hdiag⟩
  | running =>
    have hquiet : s.diagnostics = [] := by rw [hdiag, hstatus.mp hr]; rfl
    obtain ⟨⟨hprog, hprogLen, hclosed⟩, hend⟩ := step_of_running hr h
    have hlegal : t.programLegal := by
      rw [State.programLegal, hprog, hprogLen]
      exact ⟨hlen, hwf, hbelow⟩
    have hopen : t.windowAgrees := fun hw => by simp [hclosed] at hw
    obtain ⟨hrun, hout, hd⟩ | ⟨hrun, hout, hd⟩ := hend
    · exact ⟨by simp [State.statusAgrees, hrun, hout], hlegal, hopen, by rw [hd, hquiet, hout]; rfl⟩
    · exact ⟨by simp [State.statusAgrees, hrun, hout], hlegal, hopen, by rw [hd, hquiet, List.nil_append]⟩

/-- Settles O14: below 2^31 every target of the table of 10_state.md R24 fits in `pc`. -/
theorem pcFollowsTheTableWithoutWrapping : Obligations.PcFollowsTheTableWithoutWrapping := by
  intro s t hL h
  obtain ⟨hr, hk⟩ | ⟨hr, -, hk⟩ | ⟨hr, -, -, hk⟩ | ⟨hr, hlt, hpn, i, rest, hd, ht, hk⟩ := step_cases s
  · obtain rfl := Host.Outcome.next.inj (hk.symm.trans h)
    exact (pcByTable_of_halted hr _).symm
  · obtain rfl := Host.Outcome.next.inj (hk.symm.trans h)
    exact (pcByTable_endOfProgram s).symm
  · obtain rfl := Host.Outcome.next.inj (hk.symm.trans h)
    exact (pcByTable_of_isFault rfl s).symm
  · obtain ⟨htag, hfield⟩ := decode_bytesAtPc_ok hlt hd
    exact (exec_executes (hk.symm.trans h)).pc_eq_pcByTable hr htag hfield (by rw [ht]; exact hpn.trans hL)

/-- Settles O18, from the one register that an instruction names as its destination. -/
theorem onlyTheDestinationRegisterChanges : Obligations.OnlyTheDestinationRegisterChanges := by
  refine ⟨fun i s t j h hj => ?_, fun s t h => ?_⟩
  · obtain ⟨rd, hrd, hval⟩ := (exec_executes h).destination_of_reg_ne hj
    obtain ⟨imm, rfl⟩ | ⟨rs1, rs2, hi⟩ := Instr.destination_eq_some hrd
    · exact .inl ⟨rd, imm, rfl, hval⟩
    · exact .inr ⟨rs1, rs2, rd, hval, hi⟩
  · obtain ⟨-, hk⟩ | ⟨-, -, hk⟩ | ⟨-, -, -, hk⟩ | ⟨-, -, -, i, -, -, -, hk⟩ := step_cases s
    · obtain rfl := Host.Outcome.next.inj (hk.symm.trans h)
      exact ⟨0, fun _ _ => rfl⟩
    · obtain rfl := Host.Outcome.next.inj (hk.symm.trans h)
      exact ⟨0, fun _ _ => rfl⟩
    · obtain rfl := Host.Outcome.next.inj (hk.symm.trans h)
      exact ⟨0, fun _ _ => rfl⟩
    · exact (exec_executes (hk.symm.trans h)).reg_eq_of_ne

/-- Settles O19, by the ways an instruction can end. -/
theorem onlyComparisonsChangeEqualFlag : Obligations.OnlyComparisonsChangeEqualFlag := by
  intro i s t h hne
  obtain ⟨hout, hi⟩ := (exec_executes h).isComparison_of_equalFlag_ne hne
  exact ⟨hout, Instr.isComparison_iff.mp hi⟩

/-- Settles O20, by the ways an instruction can end. -/
theorem onlyACompletedDivChangesRemainder : Obligations.OnlyACompletedDivChangesRemainder :=
  fun _ _ _ h hne => (exec_executes h).eq_div_of_remainder_ne hne

/-- Settles O21: differing in `remainder` at most is a relation that every step keeps. -/
theorem remainderInfluencesNothing : Obligations.RemainderInfluencesNothing := by
  intro s t v h
  obtain ⟨_, ht', w, rfl⟩ := step_setRemainder h v
  exact ⟨w, ht'⟩

/-- Settles O22: differing in `equal_flag` at most is a relation that every instruction but JMPE and JNEQ keeps. -/
theorem onlyConditionalJumpsReadEqualFlag : Obligations.OnlyConditionalJumpsReadEqualFlag := by
  intro i s t b hjmpe hjneq h
  have hrel : DifferInEqualFlag s (s.setEqualFlag b) := ⟨b, rfl⟩
  obtain ⟨u, _, hu, hu', c, rfl⟩ := execCongruence_differInEqualFlag.exec hrel i fun hflag =>
    (hflag.elim hjmpe hjneq).elim
  obtain rfl := Host.Outcome.next.inj (hu.symm.trans h)
  exact ⟨c, hu'⟩

/-- Settles O1, field by field; the first fetch is at address 0 because `pc` is 0. -/
theorem resetLeavesTheResetState : Obligations.ResetLeavesTheResetState := by
  intro r e s
  have hreg (i : RegIdx) : (resetEvent r e s).reg i = 0 := by simp [resetEvent, State.reset, State.reg]
  have hbytes : (resetEvent r e s).bytesAtPc = (List.range (min 4 s.progLen)).map s.prog.read := by
    simp [State.bytesAtPc, resetEvent, State.reset]
  exact ⟨hreg, rfl, rfl, rfl, rfl, rfl, State.status_eq_zero rfl rfl, rfl, rfl, hbytes⟩

/-- Settles O49: STATUS is `run_state` followed by the code of the outcome. -/
theorem statusWordCarriesOutcomeAndRunState : Obligations.StatusWordCarriesOutcomeAndRunState := by
  refine ⟨fun s => ⟨s.status_low, s.status_bit4⟩, rfl, fun o => ?_, rfl⟩
  cases o <;> decide
end

section
/-! PROOFS. The family of 20_memory.md: what a step does to the program buffer. -/

namespace Sys2Proof.Machine

/-- The frame of the memory over every step: a halted machine keeps its whole state, a running one keeps the program
under each instruction, fault and end (20_memory.md R42). -/
theorem step_keeps_program {s t : State} (h : step s = .next t) : t.prog = s.prog ∧ t.progLen = s.progLen := by
  cases hr : s.runState with
  | halted =>
    obtain rfl := Host.Outcome.next.inj ((step_of_halted hr).symm.trans h)
    exact ⟨rfl, rfl⟩
  | running =>
    obtain ⟨⟨hprog, hprogLen, -⟩, -⟩ := step_of_running hr h
    exact ⟨hprog, hprogLen⟩

end Sys2Proof.Machine

open Sys2Proof Sys2Proof.Machine

/-- Settles O17: a step keeps the buffer and its length, and what is read depends on the buffer alone. -/
theorem noStepWritesTheProgram : Obligations.NoStepWritesTheProgram := by
  intro s t h
  obtain ⟨hprog, hprogLen⟩ := step_keeps_program h
  exact ⟨hprog, hprogLen, fun a => congrArg (·.read a) hprog⟩
end

section
/-! PROOFS. The family of 30_encoding.md: the decoder of the stream and the encoder undo each other, and the opcode byte
alone decides how much is read. -/

namespace Sys2Proof

/-- With all its operand bytes there, an instruction is decoded. -/
theorem decode_cons_of_oplen_le {b0 : Byte} {bs : List Byte} (h : oplen (decodeTag b0) ≤ bs.length) :
    decode (b0 :: bs) =
      .ok (instrOf (decodeTag b0) b0 (bs.getD 0 0) (bs.getD 1 0) (bs.getD 2 0), bs.drop (oplen (decodeTag b0))) := by
  obtain ⟨hlt, -⟩ | ⟨-, hd⟩ := decode_cons_cases b0 bs
  · omega
  · exact hd

/-- With an operand byte missing it is refused, and only then. -/
theorem decode_cons_eq_error_iff (b0 : Byte) (bs : List Byte) :
    decode (b0 :: bs) = .error .truncatedInstruction ↔ bs.length < oplen (decodeTag b0) := by
  obtain ⟨hlt, hd⟩ | ⟨hle, hd⟩ := decode_cons_cases b0 bs
  · exact iff_of_true hd hlt
  · exact iff_of_false (by simp [hd]) (by omega)

/-- The bytes after a decoded instruction's operand bytes are left over. -/
theorem decode_cons_ok_rest {b0 : Byte} {bs rest : List Byte} {i : Instr} (h : decode (b0 :: bs) = .ok (i, rest)) :
    rest = bs.drop (oplen (decodeTag b0)) := by
  obtain ⟨-, hle⟩ := decode_cons_ok h
  rw [decode_cons_of_oplen_le hle, Except.ok.injEq, Prod.mk.injEq] at h
  exact h.2.symm

/-- The first byte of an encoding decodes to the instruction's tag, and the bytes after it are its operand bytes, from
which the decoder builds the instruction again. -/
theorem encode_eq_cons {i : Instr} (h : i.encodable = true) :
    ∃ b0 ops, encode i = b0 :: ops ∧ decodeTag b0 = i.tag ∧ ops.length = oplen i.tag ∧
      instrOf i.tag b0 (ops.getD 0 0) (ops.getD 1 0) (ops.getD 2 0) = i := by
  cases i with
  | load rd imm => exact ⟨_, _, rfl, rfl, rfl, congrArg (Instr.load rd) (immOfBytes_high_low imm)⟩
  | igl byte => exact ⟨_, _, rfl, (decodeTag_eq_igl_iff byte).mpr (of_decide_eq_true h), rfl, rfl⟩
  | _ => exact ⟨_, _, rfl, rfl, rfl, rfl⟩

/-- An instruction takes nothing from the bytes after its operand bytes. -/
theorem instrOf_getD_append {t : Tag} {ops : List Byte} (h : oplen t ≤ ops.length) (b0 : Byte) (rest : List Byte) :
    instrOf t b0 ((ops ++ rest).getD 0 0) ((ops ++ rest).getD 1 0) ((ops ++ rest).getD 2 0) =
      instrOf t b0 (ops.getD 0 0) (ops.getD 1 0) (ops.getD 2 0) := by
  have hget (k : Nat) (hk : k < oplen t) : (ops ++ rest).getD k 0 = ops.getD k 0 :=
    List.getD_append _ _ _ _ (by omega)
  cases t <;> simp (disch := decide) only [instrOf, hget]

/-- What the decoder builds stands for bytes: only a byte of 17 to 255 becomes an illegal instruction. -/
theorem encodable_instrOf_decodeTag (b0 b1 b2 b3 : Byte) :
    (instrOf (decodeTag b0) b0 b1 b2 b3).encodable = true := by
  have higl := (decodeTag_eq_igl_iff b0).mp
  cases ht : decodeTag b0 with
  | igl => exact decide_eq_true (higl ht)
  | _ => rfl

/-- The encoding of an instruction built for a tag, when `b0` is a byte of that tag: `b0` and the operand bytes that the
instruction took. -/
theorem encode_instrOf {t : Tag} {b0 : Byte} (h : t ≠ .igl → opcodeByte t = b0) (b1 b2 b3 : Byte) :
    encode (instrOf t b0 b1 b2 b3) = b0 :: [b1, b2, b3].take (oplen t) := by
  cases t with
  | load => simp [instrOf, encode, oplen, ← h]
  | igl => rfl
  | _ => exact congrArg (· :: _) (h (by decide))

/-- The first bytes of a sequence, up to three, read one by one. -/
theorem take_getD_eq_take {bs : List Byte} {n : Nat} (h3 : n ≤ 3) (hn : n ≤ bs.length) :
    [bs.getD 0 0, bs.getD 1 0, bs.getD 2 0].take n = bs.take n := by
  refine List.ext_getElem (by simp; omega) fun k hk _ => ?_
  have hkn : k < n := hk.trans_le (List.length_take_le ..)
  have hkbs : k < bs.length := hkn.trans_le hn
  obtain rfl | rfl | rfl : k = 0 ∨ k = 1 ∨ k = 2 := by omega
  all_goals simp [List.getElem?_eq_getElem hkbs]

end Sys2Proof

open Sys2Proof Sys2Proof.Machine

/-- Settles O44: the first byte of the encoding fixes the tag and so the length, and the bytes after the operand bytes
are not looked at. -/
theorem decodeUndoesEncode : Obligations.DecodeUndoesEncode := by
  intro i rest h
  obtain ⟨b0, ops, henc, htag, hlen, hinstr⟩ := encode_eq_cons h
  have hle : oplen (decodeTag b0) ≤ (ops ++ rest).length := by rw [htag, List.length_append]; omega
  rw [henc, List.cons_append, decode_cons_of_oplen_le hle, htag, instrOf_getD_append hlen.ge, hinstr, ← hlen,
    List.drop_left]

/-- Settles O45: the encoder gives back the first byte and the operand bytes the instruction was built from, and what is
left over is the rest of the sequence. -/
theorem encodeUndoesDecode : Obligations.EncodeUndoesDecode := by
  intro bytes rest i h
  cases bytes with
  | nil => simp [decode] at h
  | cons b0 bs =>
    obtain rfl := decode_cons_ok_rest h
    obtain ⟨rfl, hle⟩ := decode_cons_ok h
    refine ⟨encodable_instrOf_decodeTag .., ?_⟩
    rw [encode_instrOf opcodeByte_decodeTag, take_getD_eq_take (oplen_le _) hle, List.cons_append,
      List.take_append_drop]

/-- Settles O46, from the two things the decoder can do with a first byte. -/
theorem opcodeByteDecidesTagAndLength : Obligations.OpcodeByteDecidesTagAndLength := fun b0 operands =>
  ⟨(decode_cons_eq_error_iff b0 operands).symm, fun hle => ⟨_, decode_cons_of_oplen_le hle, tag_instrOf ..⟩⟩

/-- Settles O47: each byte sequence is the encoding of its instruction, and the bytes after it. -/
theorem spelledWordsDecode : Obligations.SpelledWordsDecode :=
  ⟨decodeUndoesEncode (.load 0 500) [] rfl, decodeUndoesEncode (.add 0 1 2) [] rfl,
    decodeUndoesEncode (.div 1 0 2) [] rfl, decodeUndoesEncode .hlt [0, 0, 0] rfl,
    decodeUndoesEncode (.jmpb 31) [] rfl, decodeUndoesEncode (.eq 0 1 0xFF) [] rfl,
    decodeUndoesEncode (.gt 0 1) [0x05] rfl, decodeUndoesEncode (.jneq 4) [] rfl,
    decodeUndoesEncode (.igl 0xFE) [0, 0, 0] rfl⟩

/-- Settles O48: the meanings of EQ and NEQ compare two registers and take no other operand. -/
theorem paddingByteHasNoEffect : Obligations.PaddingByteHasNoEffect :=
  fun _ _ _ _ _ => ⟨rfl, rfl⟩
end

section
/-! PROOFS. The family of 40_decoder.md: the decoder block's function and the code of its result. -/

namespace Sys2Proof

/-- Every byte below 17 is the opcode byte of a named tag (40_decoder.md R87(d)). -/
theorem exists_opcodeByte_eq {b : Byte} (h : b.toNat < 17) : ∃ t : Tag, t ≠ .igl ∧ opcodeByte t = b := by
  have hne : decodeTag b ≠ .igl := fun he => absurd ((decodeTag_eq_igl_iff b).mp he) (by omega)
  exact ⟨decodeTag b, hne, opcodeByte_decodeTag hne⟩

/-- The code was chosen so that a named tag's code equals its opcode byte (40_decoder.md R83). -/
theorem toNat_tagCode_of_ne_igl {t : Tag} (h : t ≠ .igl) : (tagCode t).toNat = (opcodeByte t).toNat := by
  cases t with
  | igl => exact absurd rfl h
  | _ => rfl

end Sys2Proof

open Sys2Proof

/-- Settles O42: a byte below 17 is the opcode byte of a named tag, which the decoder gives back and whose code is that
byte; every other byte has the tag IGL, of code 17. -/
theorem decoderBlockFunctionAndCode : Obligations.DecoderBlockFunctionAndCode := by
  have illegal (b : Byte) (h : 17 ≤ b.toNat) : decodeTag b = .igl := (decodeTag_eq_igl_iff b).mpr h
  refine ⟨fun b h => ?named, illegal, fun b => ?code⟩
  case named =>
    obtain ⟨t, hne, rfl⟩ := exists_opcodeByte_eq h
    rw [decodeTag_opcodeByte]
    cases t with
    | igl => exact absurd rfl hne
    | _ => rfl
  case code =>
    obtain h | h := Nat.lt_or_ge b.toNat 17
    · obtain ⟨t, hne, rfl⟩ := exists_opcodeByte_eq h
      rw [decodeTag_opcodeByte, toNat_tagCode_of_ne_igl hne, Nat.min_eq_left h.le]
    · rw [illegal b h, Nat.min_eq_right h]
      rfl
end

section
/-! PROOFS. The family of 41_executor_cycle.md: what a step fetches, what the host can do, the events a step emits, and
the run to the first terminal step. -/

namespace Sys2Proof

/-- An instruction takes at most four bytes, so the bytes of a table word always hold one (30_encoding.md R62). -/
theorem exists_decode_tableWordBytes (nbits w : Nat) :
    ∃ i rest, decode (tableWordBytes nbits w) = .ok (i, rest) := by
  obtain ⟨b0, b1, b2, b3, hbytes⟩ : ∃ b0 b1 b2 b3, tableWordBytes nbits w = [b0, b1, b2, b3] := ⟨_, _, _, _, rfl⟩
  have hlen : oplen (decodeTag b0) ≤ [b1, b2, b3].length := oplen_le _
  rw [hbytes, decode_cons_of_oplen_le hlen]
  exact ⟨_, _, rfl⟩

end Sys2Proof

namespace Sys2Proof.Machine

/-! ## The first terminal step -/

/-- A run, its first step apart. -/
theorem run_succ_of_step {M : Host.Core} {s u : M.State} (h : M.step s = .next u) (k : Nat) :
    M.run (k + 1) s = M.run k u := by
  rw [Host.Core.run, h]

theorem core_run_succ {s u : State} (h : step s = .next u) (k : Nat) : core.run (k + 1) s = core.run k u :=
  run_succ_of_step (M := core) h k

theorem core_run_zero (s t : State) : core.run 0 s = .next t ↔ s = t :=
  ⟨fun h => Host.Outcome.next.inj h, fun h => congrArg Host.Outcome.next h⟩

/-- No step stops without a next state. -/
theorem exists_step_eq_next (s : State) : ∃ t, step s = .next t := by
  obtain ⟨-, hk⟩ | ⟨-, -, hk⟩ | ⟨-, -, -, hk⟩ | ⟨-, -, -, i, -, -, -, hk⟩ := step_cases s
  · exact ⟨_, hk⟩
  · exact ⟨_, hk⟩
  · exact ⟨_, hk⟩
  · exact hk ▸ exec_next i _

/-- Steps taken one by one from `s` first report a terminal outcome after `k` steps that report `Continue`, at `t`. -/
def FirstTerminal (k : Nat) (s t : State) : Prop :=
  core.run (k + 1) s = .next t ∧ t.outcome ≠ .continues ∧
    ∀ j < k, ∃ u : State, core.run (j + 1) s = .next u ∧ u.outcome = .continues

theorem firstTerminal_zero {s u : State} (h : step s = .next u) (t : State) :
    FirstTerminal 0 s t ↔ u.outcome ≠ .continues ∧ u = t := by
  simp only [FirstTerminal, core_run_succ h, core_run_zero, Nat.not_lt_zero, false_implies, implies_true, and_true]
  constructor
  · rintro ⟨rfl, ht⟩
    exact ⟨ht, rfl⟩
  · rintro ⟨hu, rfl⟩
    exact ⟨rfl, hu⟩

theorem firstTerminal_succ {s u : State} (h : step s = .next u) (k : Nat) (t : State) :
    FirstTerminal (k + 1) s t ↔ u.outcome = .continues ∧ FirstTerminal k u t := by
  simp only [FirstTerminal, Nat.forall_lt_succ_left, core_run_succ h, core_run_zero, exists_eq_left']
  tauto

/-- `runToHalt` by one step more: it stops at the first step's state or goes on from there. -/
theorem runToHalt_succ {s u : State} (h : step s = .next u) (fuel : Nat) :
    runToHalt (fuel + 1) s = if u.outcome = .continues then runToHalt fuel u else some (.next u) := by
  rw [runToHalt, h]

/-- `runToHalt` answers the first terminal step, if the fuel reaches it. -/
theorem runToHalt_eq_some_iff (fuel : Nat) (s t : State) :
    runToHalt fuel s = some (.next t) ↔ ∃ k < fuel, FirstTerminal k s t := by
  induction fuel generalizing s with
  | zero => simp [runToHalt]
  | succ fuel ih =>
    obtain ⟨u, hu⟩ := exists_step_eq_next s
    rw [runToHalt_succ hu, Nat.exists_lt_succ_left]
    by_cases hc : u.outcome = .continues
    · simp [hc, ih, firstTerminal_zero hu, firstTerminal_succ hu]
    · simp [hc, firstTerminal_zero hu, firstTerminal_succ hu]

/-! ## What a step fetches -/

/-- Where bytes decode, `pc` is inside the program. -/
theorem pc_lt_of_decode_ok {s : State} {i : Instr} {rest : List Byte} (h : decode s.bytesAtPc = .ok (i, rest)) :
    s.pc.toNat < s.progLen := by
  by_contra hle
  have hnone : s.bytesAtPc = [] := by simp [State.bytesAtPc, Nat.sub_eq_zero_of_le (not_lt.mp hle)]
  simp [hnone, decode] at h

/-- The next step fetches from the bytes just placed, when they are as many as it can fetch. -/
theorem bytesAtPc_placeAtPc {s : State} (hwf : s.prog.wf = true) {bytes : List Byte} (hlen : bytes.length = 4) :
    (placeAtPc s bytes).bytesAtPc = bytes := by
  have hfour : min 4 (max s.progLen (s.pc.toNat + bytes.length) - s.pc.toNat) = bytes.length := by omega
  apply List.ext_getElem
  · simp [State.bytesAtPc, placeAtPc, hfour]
  · intro k _ hk
    simp [State.bytesAtPc, placeAtPc, Memory.read_writeBytes bytes hwf _ k hk]

/-! ## The events of a step -/

/-- The events of an outcome, by the two outcomes that have one. -/
theorem Outcome.diagnostics_eq (o : Outcome) :
    o.diagnostics =
      if o = .halted then [.hltEncountered]
      else if o = .illegalOpcode then [.illegalOpcodeEncountered]
      else [] := by
  cases o <;> rfl

/-- A step of a running machine emits the events of the outcome it reports. -/
theorem step_diagnostics_of_running {s t : State} (hr : s.runState = .running) (h : step s = .next t) :
    t.diagnostics = s.diagnostics ++ t.outcome.diagnostics := by
  obtain ⟨-, ⟨-, ho, hd⟩ | ⟨-, -, hd⟩⟩ := step_of_running hr h
  · rw [hd, ho, Outcome.diagnostics, List.append_nil]
  · exact hd

/-! ## The host's actions -/

section
variable {s t : State} {bytes : List Byte}

theorem hostLoadProgram_of_closed (bytes : List Byte) (h : s.launchWindow = false) :
    hostLoadProgram bytes s = .refused .programChangedAfterLaunch := by
  simp [hostLoadProgram, h]

theorem hostLoadProgram_of_tooLong (h : s.launchWindow = true) (hlen : Config.progLenMax < bytes.length) :
    hostLoadProgram bytes s = .refused .programTooLong := by
  simp [hostLoadProgram, h, hlen]

theorem hostLoadProgram_of_open (h : s.launchWindow = true) (hlen : bytes.length ≤ Config.progLenMax) :
    hostLoadProgram bytes s = .next { s with prog := Memory.writeBytes [] 0 bytes, progLen := bytes.length } := by
  simp [hostLoadProgram, h, hlen]

/-- All that a load which is not refused can do. -/
theorem hostLoadProgram_eq_next (h : hostLoadProgram bytes s = .next t) :
    bytes.length ≤ Config.progLenMax ∧
      t = { s with prog := Memory.writeBytes [] 0 bytes, progLen := bytes.length } := by
  obtain hw | hw := Bool.eq_false_or_eq_true s.launchWindow
  · obtain hlen | hlen := Nat.lt_or_ge Config.progLenMax bytes.length
    · cases (hostLoadProgram_of_tooLong hw hlen).symm.trans h
    · exact ⟨hlen, (Host.Outcome.next.inj ((hostLoadProgram_of_open hw hlen).symm.trans h)).symm⟩
  · cases (hostLoadProgram_of_closed bytes hw).symm.trans h

theorem hostWriteReg_of_open (h : s.launchWindow = true) (idx : BitVec 5) (v : Word) :
    hostWriteReg idx v s = s.setReg idx.toFin v :=
  if_pos h

theorem hostWriteReg_of_closed (h : s.launchWindow = false) (idx : BitVec 5) (v : Word) :
    hostWriteReg idx v s = s := by
  simp [hostWriteReg, h]

/-- A program the host loads reads back byte by byte. -/
theorem read_writeBytes_nil {k : Nat} (h : k < bytes.length) :
    (Memory.writeBytes [] 0 bytes).read k = bytes[k] := by
  simpa using Memory.read_writeBytes bytes (m := []) rfl 0 k h

/-- A program the host loads is legal. -/
theorem programLegal_of_load (s : State) (hlen : bytes.length ≤ Config.progLenMax) :
    State.programLegal { s with prog := Memory.writeBytes [] 0 bytes, progLen := bytes.length } :=
  ⟨hlen, Memory.wf_writeBytes bytes rfl 0, Memory.below_writeBytes bytes rfl (by simp)⟩

/-- After reset the machine is in a launch state, wherever the program it keeps is legal. -/
theorem resetEvent_isLaunch (r : Word) (e : Bool) (h : s.programLegal) : (resetEvent r e s).isLaunch :=
  ⟨rfl, rfl, rfl, h, rfl, rfl⟩

/-- A launch state meets the invariant. -/
theorem State.inv_of_isLaunch (h : s.isLaunch) : s.Inv := by
  obtain ⟨hpc, hrun, hout, hlegal, -, hdiag⟩ := h
  exact ⟨by simp [State.statusAgrees, hrun, hout], hlegal, fun _ => ⟨hrun, hpc⟩, by rw [hdiag, hout]; rfl⟩

/-- A load writes the program and its length, and nothing else the invariant speaks of. -/
theorem hostLoadProgram_keeps_inv (hs : s.Inv) (h : hostLoadProgram bytes s = .next t) : t.Inv := by
  obtain ⟨hstatus, -, hwindow, hdiag⟩ := hs
  obtain ⟨hlen, rfl⟩ := hostLoadProgram_eq_next h
  exact ⟨hstatus, programLegal_of_load s hlen, hwindow, hdiag⟩

/-- A register write, honoured or ignored, writes nothing the invariant speaks of. -/
theorem hostWriteReg_keeps_inv (hs : s.Inv) (idx : BitVec 5) (v : Word) : (hostWriteReg idx v s).Inv := by
  cases hw : s.launchWindow with
  | false => exact (hostWriteReg_of_closed hw idx v).symm ▸ hs
  | true =>
    obtain ⟨hstatus, hlegal, hwindow, hdiag⟩ := hs
    rw [hostWriteReg_of_open hw]
    exact ⟨hstatus, hlegal, hwindow, hdiag⟩

/-- No step opens the launch window. -/
theorem step_keeps_window_closed (hw : s.launchWindow = false) (h : step s = .next t) : t.launchWindow = false := by
  cases hr : s.runState with
  | halted =>
    obtain rfl := Host.Outcome.next.inj ((step_of_halted hr).symm.trans h)
    exact hw
  | running =>
    obtain ⟨⟨-, -, hclosed⟩, -⟩ := step_of_running hr h
    exact hclosed

end

end Sys2Proof.Machine

open Sys2Proof Sys2Proof.Machine

/-- Settles O4: reset gives a launch state, and the host writes only what the invariant leaves open. -/
theorem hostActionsKeepTheInvariant : Obligations.HostActionsKeepTheInvariant := by
  refine ⟨fun r e s hlegal => ?reset, fun _ _ _ hs h => hostLoadProgram_keeps_inv hs h,
    fun idx v _ hs => hostWriteReg_keeps_inv hs idx v⟩
  case reset =>
    have hlaunch := resetEvent_isLaunch r e hlegal
    exact ⟨State.inv_of_isLaunch hlaunch, hlaunch⟩

/-- Settles O6, by the window being open or closed; what a step does to it is in `step_of_running`. -/
theorem hostWritesOnlyInTheLaunchWindow : Obligations.HostWritesOnlyInTheLaunchWindow := by
  refine ⟨fun bytes s hw hlen => ?load, fun idx v _ hw => hostWriteReg_of_open hw idx v,
    fun idx v _ hw => hostWriteReg_of_closed hw idx v, fun bytes _ hw => hostLoadProgram_of_closed bytes hw,
    fun s t hr h => ?closes, fun _ _ hw h => step_keeps_window_closed hw h, fun _ _ _ => rfl⟩
  case load => exact ⟨_, hostLoadProgram_of_open hw hlen, rfl, fun _ hk => read_writeBytes_nil hk⟩
  case closes =>
    obtain ⟨⟨-, -, hclosed⟩, -⟩ := step_of_running hr h
    exact hclosed

/-- Settles O9: the bytes at `pc` are the ones placed, and they always hold an instruction. -/
theorem stepRunsThePlacedWord : Obligations.StepRunsThePlacedWord := by
  intro s nbits w hwf
  obtain ⟨i, rest, hd⟩ := exists_decode_tableWordBytes nbits w
  have hplaced : decode (s.withFetchWord nbits w).bytesAtPc = .ok (i, rest) := by
    rw [State.withFetchWord, bytesAtPc_placeAtPc hwf rfl, hd]
  exact ⟨i, by rw [decodeTableWord, hd], step_of_decode_ok rfl (pc_lt_of_decode_ok hplaced) hplaced⟩

/-- Settles O16: a halted machine keeps its record, and a running one adds the events of the outcome it reports. -/
theorem diagnosticsOnlyFromHltAndIllegalBytes : Obligations.DiagnosticsOnlyFromHltAndIllegalBytes := by
  refine ⟨rfl, rfl, fun s t h => ?_⟩
  cases hr : s.runState with
  | halted =>
    obtain rfl := Host.Outcome.next.inj ((step_of_halted hr).symm.trans h)
    rfl
  | running =>
    rw [step_diagnostics_of_running hr h, Outcome.diagnostics_eq, if_neg (show ¬RunState.running = .halted by decide)]
    split_ifs
    · rfl
    · rfl
    · exact List.append_nil _

/-- Settles O24, by induction on the fuel. -/
theorem runToHaltIsTheFirstTerminalStep : Obligations.RunToHaltIsTheFirstTerminalStep :=
  runToHalt_eq_some_iff

/-- Settles O8: bytes that decode stand below `L`, so the step fetches them. -/
theorem stepRunsTheDecodedInstruction : Obligations.StepRunsTheDecodedInstruction :=
  fun _ _ _ hr hd => step_of_decode_ok hr (pc_lt_of_decode_ok hd) hd

/-- Settles O10: the fetch phase looks at `run_state` before anything else. -/
theorem stepInHaltedChangesNothing : Obligations.StepInHaltedChangesNothing :=
  fun _ hr => step_of_halted hr

/-- Settles O11: the fetch phase ends the run before it fetches. -/
theorem endOfProgramStep : Obligations.EndOfProgramStep :=
  fun _ hr hp => step_of_end hr hp
end

section
/-! PROOFS. The family of 42_load.md: the effect of LOAD, its faults and its bytes. -/

namespace Sys2Proof.Machine

/-- A step at an instruction of tag `t` that lacks an operand byte (41_executor_cycle.md R105). -/
theorem truncatesAt_opcodeByte (t : Tag) : TruncatesAt (opcodeByte t) (1 + oplen t) := by
  intro s hr hlt hread hl
  refine step_of_truncated hr hlt ?_
  rw [hread, decodeTag_opcodeByte, State.pn]
  omega

/-- LOAD with a destination that names register `d`: the immediate goes there, and `pc` moves past the instruction. -/
theorem exec_load_of_eq {rd : Byte} {d : RegIdx} (h : rd.toNat = d.val) (imm : Imm) (s : State) :
    exec (.load rd imm) s = .next ((s.setReg d (zext32 imm)).complete (s.pn .load)) :=
  congrArg Host.Outcome.next (withReg_of_eq h s _)

/-- LOAD with a destination that names no register. -/
theorem exec_load_of_le {rd : Byte} (h : 32 ≤ rd.toNat) (imm : Imm) (s : State) :
    exec (.load rd imm) s = .next (s.raise .registerIndexOutOfRange) :=
  congrArg Host.Outcome.next (withReg_of_le h s _)

end Sys2Proof.Machine

open Sys2Proof Sys2Proof.Machine

/-- Settles O29: the destination exists or not, the four bytes are all there or not. -/
theorem loadWritesTheZeroExtendedImmediate : Obligations.LoadWritesTheZeroExtendedImmediate := by
  refine ⟨fun rd imm d s h => ?completes, fun _ imm s h => exec_load_of_le h imm s, fun rd hi lo rest => ?bytes,
    truncatesAt_opcodeByte .load⟩
  case completes =>
    rw [BitVec.ofNat_toNat]
    exact exec_load_of_eq h imm s
  case bytes =>
    have hlen : oplen (decodeTag 0x00#8) ≤ (rd :: hi :: lo :: rest).length := Nat.le_add_left 3 rest.length
    exact decode_cons_of_oplen_le hlen
end

section
/-! PROOFS. The family of 43_arithmetic.md: the effects of ADD, SUB, MUL and DIV, their faults and their bytes, and
division at every sign combination. -/

namespace Sys2Proof

/-- An instruction with three operand bytes, all there, is decoded from its four bytes. -/
theorem decode_of_oplen_eq_three {b0 : Byte} (h : oplen (decodeTag b0) = 3) (b1 b2 b3 : Byte) (rest : List Byte) :
    decode (b0 :: b1 :: b2 :: b3 :: rest) = .ok (instrOf (decodeTag b0) b0 b1 b2 b3, rest) := by
  have hlen : oplen (decodeTag b0) ≤ (b1 :: b2 :: b3 :: rest).length := h ▸ Nat.le_add_left 3 rest.length
  rw [decode_cons_of_oplen_le hlen, h]
  rfl

/-! ## Truncated division of integers -/

/-- The truncated quotient of a dividend that is not positive is the opposite of its absolute value's quotient. -/
theorem tdiv_of_nonpos {a : Int} (h : a ≤ 0) (b : Int) : a.tdiv b = -(-a / b) := by
  rw [← Int.tdiv_eq_ediv_of_nonneg (Int.neg_nonneg.mpr h), Int.neg_tdiv, neg_neg]

/-- The truncated remainder of a dividend that is not positive is not positive. -/
theorem tmod_nonpos {a : Int} (h : a ≤ 0) (b : Int) : a.tmod b ≤ 0 := by
  have hneg : 0 ≤ (-a).tmod b := Int.tmod_nonneg b (Int.neg_nonneg.mpr h)
  rwa [Int.neg_tmod, Int.neg_nonneg] at hneg

/-- The truncated remainder is smaller than the divisor, in absolute value. -/
theorem abs_tmod_lt (a : Int) {b : Int} (hb : b ≠ 0) : |a.tmod b| < |b| := by
  rw [Int.abs_eq_natAbs, Int.abs_eq_natAbs, Int.natAbs_tmod, Int.ofNat_lt]
  exact Nat.mod_lt _ (Int.natAbs_pos.mpr hb)

/-- The truncated quotient by a divisor greater than the dividend, in absolute value, is 0. -/
theorem tdiv_eq_zero_of_abs_lt {a b : Int} (h : |a| < |b|) : a.tdiv b = 0 := by
  rw [Int.abs_eq_natAbs, Int.abs_eq_natAbs, Int.ofNat_lt] at h
  rw [← Int.natAbs_eq_zero, Int.natAbs_tdiv]
  exact Nat.div_eq_of_lt h

/-- The truncated remainder by such a divisor is the dividend. -/
theorem tmod_eq_self_of_abs_lt {a b : Int} (h : |a| < |b|) : a.tmod b = a := by
  rw [Int.tmod_def, tdiv_eq_zero_of_abs_lt h, mul_zero, sub_zero]

end Sys2Proof

namespace Sys2Proof.Machine

/-! ## Three register operands -/

section
variable {b1 b2 b3 : Byte} {i j d : RegIdx}

/-- Three register operands that name registers `i`, `j` and `d`. -/
theorem withReg3_of_eq (h1 : b1.toNat = i.val) (h2 : b2.toNat = j.val) (h3 : b3.toNat = d.val) (s : State)
    (k : RegIdx → RegIdx → RegIdx → State) : withReg3 b1 b2 b3 s k = k i j d := by
  rw [withReg3, withReg_of_eq h1, withReg_of_eq h2, withReg_of_eq h3]

/-- Three register operands of which one names no register. -/
theorem withReg3_of_le (h : 32 ≤ b1.toNat ∨ 32 ≤ b2.toNat ∨ 32 ≤ b3.toNat) (s : State)
    (k : RegIdx → RegIdx → RegIdx → State) : withReg3 b1 b2 b3 s k = s.raise .registerIndexOutOfRange := by
  obtain ⟨i, j, d, h1, h2, h3, -⟩ | ⟨-, hk⟩ := withReg3_cases b1 b2 b3 s k
  · omega
  · exact hk

end

section
variable {rs1 rs2 rd : Byte} {i j d : RegIdx}

/-! ## ADD, SUB and MUL -/

/-- What ADD, SUB and MUL share, on operands that name registers `i`, `j` and `d`. -/
theorem arithWith_of_eq (h1 : rs1.toNat = i.val) (h2 : rs2.toNat = j.val) (h3 : rd.toNat = d.val)
    (f : Int → Int → Int) (t : Tag) (s : State) :
    arithWith f t rs1 rs2 rd s = (s.setReg d (wrap32 (f (s.reg i).toInt (s.reg j).toInt))).complete (s.pn t) :=
  withReg3_of_eq h1 h2 h3 s _

/-- What they share, on operands of which one names no register. -/
theorem arithWith_of_le (h : 32 ≤ rs1.toNat ∨ 32 ≤ rs2.toNat ∨ 32 ≤ rd.toNat) (f : Int → Int → Int) (t : Tag)
    (s : State) : arithWith f t rs1 rs2 rd s = s.raise .registerIndexOutOfRange :=
  withReg3_of_le h s _

/-! ## DIV -/

variable {s : State}

/-- DIV by a divisor that is not 0: quotient and remainder go to the destination and to `remainder`, and `pc` moves past
the instruction. -/
theorem exec_div_of_ne_zero (h1 : rs1.toNat = i.val) (h2 : rs2.toNat = j.val) (h3 : rd.toNat = d.val)
    (hb : (s.reg j).toInt ≠ 0) :
    exec (.div rs1 rs2 rd) s = .next
      (((s.setReg d (wrap32 (truncQuot (s.reg i).toInt (s.reg j).toInt))).setRemainder
        (wrap32 (truncRem (s.reg i).toInt (s.reg j).toInt))).complete (s.pn .div)) :=
  congrArg Host.Outcome.next ((withReg3_of_eq h1 h2 h3 s _).trans (if_neg hb))

/-- DIV by 0. -/
theorem exec_div_of_eq_zero (h1 : rs1.toNat = i.val) (h2 : rs2.toNat = j.val) (h3 : rd.toNat = d.val)
    (hb : (s.reg j).toInt = 0) : exec (.div rs1 rs2 rd) s = .next (s.raise .divisionByZero) :=
  congrArg Host.Outcome.next ((withReg3_of_eq h1 h2 h3 s _).trans (if_pos hb))

/-- DIV with an operand byte that names no register. -/
theorem exec_div_of_le (h : 32 ≤ rs1.toNat ∨ 32 ≤ rs2.toNat ∨ 32 ≤ rd.toNat) (s : State) :
    exec (.div rs1 rs2 rd) s = .next (s.raise .registerIndexOutOfRange) :=
  congrArg Host.Outcome.next (withReg3_of_le h s _)

end

/-- The wrapped quotient is the signed quotient of the two words. -/
theorem wrap32_truncQuot (x y : Word) : wrap32 (truncQuot x.toInt y.toInt) = x.sdiv y := by
  apply BitVec.eq_of_toInt_eq
  rw [wrap32, BitVec.toInt_ofInt, BitVec.toInt_sdiv, truncQuot]

/-- The wrapped remainder is the signed remainder of the two words. -/
theorem wrap32_truncRem (x y : Word) : wrap32 (truncRem x.toInt y.toInt) = x.srem y := by
  rw [wrap32, truncRem, truncQuot, ← Int.tmod_def, ← BitVec.toInt_srem, BitVec.ofInt_toInt]

/-- The signed quotient of two words is the truncated one, but for the one quotient that does not fit. -/
theorem toInt_sdiv_of_fits {x y : Word} (h : ¬(x.toInt = -2 ^ 31 ∧ y.toInt = -1)) :
    (x.sdiv y).toInt = x.toInt.tdiv y.toInt := by
  refine BitVec.toInt_sdiv_of_ne_or_ne x y (not_and_or.mp ?_)
  rintro ⟨rfl, rfl⟩
  exact h ⟨rfl, rfl⟩

end Sys2Proof.Machine

open Sys2Proof Sys2Proof.Machine

/-- Settles O30: each of the three is the shared meaning `arithWith` at its own operation; its operand bytes all name
registers or one does not, and its four bytes are all there or not. -/
theorem addSubMulWriteTheWrappedResult : Obligations.AddSubMulWriteTheWrappedResult := by
  refine ⟨fun rs1 rs2 rd a b d s h1 h2 h3 => ?completes, fun rs1 rs2 rd s h => ?raises,
    fun rs1 rs2 rd rest => ?bytes, truncatesAt_opcodeByte .add, truncatesAt_opcodeByte .sub,
    truncatesAt_opcodeByte .mul⟩
  case completes =>
    have completes := arithWith_of_eq h1 h2 h3
    exact ⟨congrArg Host.Outcome.next (completes _ .add s), congrArg Host.Outcome.next (completes _ .sub s),
      congrArg Host.Outcome.next (completes _ .mul s)⟩
  case raises =>
    have raises := arithWith_of_le h
    exact ⟨congrArg Host.Outcome.next (raises _ .add s), congrArg Host.Outcome.next (raises _ .sub s),
      congrArg Host.Outcome.next (raises _ .mul s)⟩
  case bytes =>
    exact ⟨decode_of_oplen_eq_three rfl rs1 rs2 rd rest, decode_of_oplen_eq_three rfl rs1 rs2 rd rest,
      decode_of_oplen_eq_three rfl rs1 rs2 rd rest⟩

/-- Settles O31: the divisor is 0 or not, an operand byte names no register, the four bytes are all there or not. -/
theorem divWritesQuotientAndRemainder : Obligations.DivWritesQuotientAndRemainder :=
  ⟨fun _ _ _ _ _ _ _ h1 h2 h3 hb => exec_div_of_ne_zero h1 h2 h3 hb,
    fun _ _ _ _ _ _ _ h1 h2 h3 hb => exec_div_of_eq_zero h1 h2 h3 hb,
    fun _ _ _ s h => exec_div_of_le h s,
    decode_of_oplen_eq_three rfl,
    truncatesAt_opcodeByte .div⟩

/-- Settles O32: DIV writes the signed quotient and remainder of the two words. These are the truncated ones of their
values, of which every row of R141 but the wrapped one speaks; the wrapped row is one pair of words. -/
theorem divisionAtEverySign : Obligations.DivisionAtEverySign := by
  intro rs1 rs2 rd i j d s h1 h2 h3
  refine ⟨fun hb => ⟨_, exec_div_of_ne_zero h1 h2 h3 hb, ?_⟩, fun h0 => exec_div_of_eq_zero h1 h2 h3 h0⟩
  rw [State.complete_reg, State.setRemainder_reg, State.setReg_reg, if_pos rfl, State.complete_remainder,
    State.setRemainder_remainder, wrap32_truncQuot, wrap32_truncRem]
  generalize s.reg i = x
  generalize s.reg j = y at hb ⊢
  refine ⟨fun hfits => ?ordinary, fun hwraps => ?wrapped⟩
  case ordinary =>
    rw [toInt_sdiv_of_fits hfits, BitVec.toInt_srem]
    have hr := abs_lt.mp (abs_tmod_lt x.toInt hb)
    refine ⟨fun ha _ => Int.tdiv_eq_ediv_of_nonneg ha, fun ha _ => tdiv_of_nonpos ha.le _, fun ha _ => ?_,
      fun ha _ => ?_, (Int.mul_tdiv_add_tmod _ _).symm, fun ha => ⟨Int.tmod_nonneg _ ha, hr.2⟩,
      fun ha => ⟨hr.1, tmod_nonpos ha.le _⟩,
      fun hlt => ⟨tdiv_eq_zero_of_abs_lt hlt, tmod_eq_self_of_abs_lt hlt⟩⟩
    · rw [Int.tdiv_eq_ediv_of_nonneg ha, Int.ediv_neg, neg_neg]
    · rw [tdiv_of_nonpos ha.le, Int.ediv_neg]
  case wrapped =>
    obtain rfl : x = BitVec.intMin 32 := BitVec.eq_of_toInt_eq hwraps.1
    obtain rfl : y = -1#32 := BitVec.eq_of_toInt_eq hwraps.2
    decide
end

section
/-! PROOFS. The family of 44_halt_illegal.md: HLT and the illegal opcode bytes, which end a run without a fault. -/

namespace Sys2Proof.Machine

/-- HLT: `pc` moves past its one byte, the event is recorded and the run ends. -/
theorem exec_hlt (s : State) :
    exec .hlt s = .next (((s.setPc (s.pn .hlt)).emit .hltEncountered).terminate .halted) :=
  rfl

/-- An illegal byte: the same with its own event and outcome, whatever the byte. -/
theorem exec_igl (byte : Byte) (s : State) :
    exec (.igl byte) s =
      .next (((s.setPc (s.pn .igl)).emit .illegalOpcodeEncountered).terminate .illegalOpcode) :=
  rfl

/-- Of the ways an instruction can end, only HLT's own reports `Halted`, which is no fault. -/
theorem Executes.eq_hlt_of_outcome_eq_halted {i : Instr} {s t : State} (h : Executes s i t)
    (ho : t.outcome = .halted) : i = .hlt := by
  cases h with
  | halts => rfl
  | @faults _ f hf =>
    obtain rfl : f = .halted := ho
    cases hf
  | _ => cases ho

end Sys2Proof.Machine

open Sys2Proof Sys2Proof.Machine

/-- Settles O33: HLT has no operand byte, so `pc` moves by 1 and its encoding is one byte; no other instruction ends with
`Halted`. -/
theorem hltEndsTheRun : Obligations.HltEndsTheRun :=
  ⟨exec_hlt, fun rest => decodeUndoesEncode .hlt rest rfl,
    fun _ _ _ h ho => (exec_executes h).eq_hlt_of_outcome_eq_halted ho⟩

/-- Settles O34: an illegal byte has no operand byte, and every byte of 17 or more is its own encoding. -/
theorem illegalBytesEndTheRun : Obligations.IllegalBytesEndTheRun :=
  ⟨exec_igl, fun byte rest h => decodeUndoesEncode (.igl byte) rest (decide_eq_true h)⟩
end

section
/-! PROOFS. The family of 45_jumps.md: the effects of JMP, JMPF and JMPB, their faults and their bytes. -/

namespace Sys2Proof.Machine

section
variable {rt : Byte} {r : RegIdx} {s : State}

/-! ## The operand of an unconditional jump: a register index, then the register's value -/

/-- The jump goes on with the value of the register its operand byte names, when that is not negative. -/
theorem withReg_withJumpOperand_of_nonneg (h : rt.toNat = r.val) (hv : 0 ≤ (s.reg r).toInt) (k : Nat → State) :
    withReg rt s (fun i => withJumpOperand i s k) = k (s.reg r).toInt.toNat :=
  (withReg_of_eq h s _).trans (withJumpOperand_of_nonneg hv k)

/-- It faults on a negative one, whatever the jump would have done with it. -/
theorem withReg_withJumpOperand_of_neg (h : rt.toNat = r.val) (hv : (s.reg r).toInt < 0) (k : Nat → State) :
    withReg rt s (fun i => withJumpOperand i s k) = s.raise .negativeJumpOperand :=
  (withReg_of_eq h s _).trans (withJumpOperand_of_neg hv k)

/-! ## The jumps that are taken -/

/-- JMP to a target that is not negative. -/
theorem exec_jmp_of_nonneg (h : rt.toNat = r.val) (hv : 0 ≤ (s.reg r).toInt) :
    exec (.jmp rt) s = .next (s.complete (s.reg r).toInt.toNat) :=
  congrArg Host.Outcome.next (withReg_withJumpOperand_of_nonneg h hv _)

/-- JMPF by a distance that is not negative, counted from the byte after the instruction. -/
theorem exec_jmpf_of_nonneg (h : rt.toNat = r.val) (hv : 0 ≤ (s.reg r).toInt) :
    exec (.jmpf rt) s = .next (s.complete (s.pn .jmpf + (s.reg r).toInt.toNat)) :=
  congrArg Host.Outcome.next (withReg_withJumpOperand_of_nonneg h hv _)

/-- JMPB by a distance that does not reach below address 0. -/
theorem exec_jmpb_of_le (h : rt.toNat = r.val) (hv : 0 ≤ (s.reg r).toInt) (hle : (s.reg r).toInt ≤ s.pn .jmpb) :
    exec (.jmpb rt) s = .next (s.complete (s.pn .jmpb - (s.reg r).toInt.toNat)) := by
  have hfits : ¬s.pn .jmpb < (s.reg r).toInt.toNat := not_lt.mpr (Int.toNat_le.mpr hle)
  exact congrArg Host.Outcome.next ((withReg_withJumpOperand_of_nonneg h hv _).trans (if_neg hfits))

/-- JMPB by a distance that does; such a distance is not negative. -/
theorem exec_jmpb_of_lt (h : rt.toNat = r.val) (hlt : s.pn .jmpb < (s.reg r).toInt) :
    exec (.jmpb rt) s = .next (s.raise .programCounterUnderflow) := by
  have hv : 0 ≤ (s.reg r).toInt := (Int.natCast_nonneg _).trans hlt.le
  have hunder : s.pn .jmpb < (s.reg r).toInt.toNat := Int.lt_toNat.mpr hlt
  exact congrArg Host.Outcome.next ((withReg_withJumpOperand_of_nonneg h hv _).trans (if_pos hunder))

end

end Sys2Proof.Machine

open Sys2Proof Sys2Proof.Machine

/-- Settles O35: the register exists or not, its value is negative or not, the two bytes are all there or not. -/
theorem jmpGoesToTheRegister : Obligations.JmpGoesToTheRegister :=
  ⟨fun _ _ _ h hv => exec_jmp_of_nonneg h hv,
    fun _ _ _ h hv => congrArg Host.Outcome.next (withReg_withJumpOperand_of_neg h hv _),
    fun _ s h => congrArg Host.Outcome.next (withReg_of_le h s _),
    fun rt rest => decodeUndoesEncode (.jmp rt) rest rfl,
    truncatesAt_opcodeByte .jmp⟩

/-- Settles O36: the same cases as JMP's; the distance is counted from `pn`, which is `pc + 2`. -/
theorem jmpfGoesForward : Obligations.JmpfGoesForward :=
  ⟨fun _ _ _ h hv => exec_jmpf_of_nonneg h hv,
    fun _ _ _ h hv => congrArg Host.Outcome.next (withReg_withJumpOperand_of_neg h hv _),
    fun _ s h => congrArg Host.Outcome.next (withReg_of_le h s _),
    fun rt rest => decodeUndoesEncode (.jmpf rt) rest rfl,
    truncatesAt_opcodeByte .jmpf⟩

/-- Settles O37: the same cases, and a value that is not negative is at most `pn` or exceeds it. -/
theorem jmpbGoesBackward : Obligations.JmpbGoesBackward :=
  ⟨fun _ _ _ h hv hle => exec_jmpb_of_le h hv hle,
    fun _ _ _ h hlt => exec_jmpb_of_lt h hlt,
    fun _ _ _ h hv => congrArg Host.Outcome.next (withReg_withJumpOperand_of_neg h hv _),
    fun _ s h => congrArg Host.Outcome.next (withReg_of_le h s _),
    fun rt rest => decodeUndoesEncode (.jmpb rt) rest rfl,
    truncatesAt_opcodeByte .jmpb⟩
end

section
/-! PROOFS. The family of 46_compare.md: the effects of the six comparisons, their fault and their bytes. -/

namespace Sys2Proof.Machine

section
variable {b1 b2 : Byte} {i j : RegIdx}

/-- Two register operands that name registers `i` and `j`. -/
theorem withReg2_of_eq (h1 : b1.toNat = i.val) (h2 : b2.toNat = j.val) (s : State)
    (k : RegIdx → RegIdx → State) : withReg2 b1 b2 s k = k i j := by
  rw [withReg2, withReg_of_eq h1, withReg_of_eq h2]

/-- Two register operands of which one names no register. -/
theorem withReg2_of_le (h : 32 ≤ b1.toNat ∨ 32 ≤ b2.toNat) (s : State) (k : RegIdx → RegIdx → State) :
    withReg2 b1 b2 s k = s.raise .registerIndexOutOfRange := by
  obtain ⟨i, j, h1, h2, -⟩ | ⟨-, hk⟩ := withReg2_cases b1 b2 s k
  · omega
  · exact hk

/-- What the six comparisons share, on operands that name registers `i` and `j`. -/
theorem compareWith_of_eq (h1 : b1.toNat = i.val) (h2 : b2.toNat = j.val) (rel : Int → Int → Bool) (t : Tag)
    (s : State) :
    compareWith rel t b1 b2 s = (s.setEqualFlag (rel (s.reg i).toInt (s.reg j).toInt)).complete (s.pn t) :=
  withReg2_of_eq h1 h2 s _

/-- What they share, on operands of which one names no register. -/
theorem compareWith_of_le (h : 32 ≤ b1.toNat ∨ 32 ≤ b2.toNat) (rel : Int → Int → Bool) (t : Tag) (s : State) :
    compareWith rel t b1 b2 s = s.raise .registerIndexOutOfRange :=
  withReg2_of_le h s _

end

end Sys2Proof.Machine

open Sys2Proof Sys2Proof.Machine

/-- Settles O38: EQ and NEQ are the shared meaning `compareWith` at their own relations; their operand bytes both name
registers or one does not. The padding byte is a third operand byte, so it counts towards the length. -/
theorem eqNeqWriteEqualFlag : Obligations.EqNeqWriteEqualFlag := by
  refine ⟨fun ra rb pad a b s h1 h2 => ?completes, fun ra rb pad s h => ?raises, fun ra rb pad rest => ?bytes,
    truncatesAt_opcodeByte .eq, truncatesAt_opcodeByte .neq⟩
  case completes =>
    have completes := compareWith_of_eq h1 h2
    exact ⟨congrArg Host.Outcome.next (completes _ .eq s), congrArg Host.Outcome.next (completes _ .neq s)⟩
  case raises =>
    have raises := compareWith_of_le h
    exact ⟨congrArg Host.Outcome.next (raises _ .eq s), congrArg Host.Outcome.next (raises _ .neq s)⟩
  case bytes =>
    exact ⟨decodeUndoesEncode (.eq ra rb pad) rest rfl, decodeUndoesEncode (.neq ra rb pad) rest rfl⟩

/-- Settles O39: the same cases at the four orders; `>` and `≥` are the model's spelling of `<` and `≤` with the sides
exchanged. -/
theorem orderedComparisonsWriteEqualFlag : Obligations.OrderedComparisonsWriteEqualFlag := by
  refine ⟨fun ra rb a b s h1 h2 => ?completes, fun ra rb s h => ?raises, fun ra rb rest => ?bytes,
    truncatesAt_opcodeByte .gt, truncatesAt_opcodeByte .lt, truncatesAt_opcodeByte .gte, truncatesAt_opcodeByte .lte⟩
  case completes =>
    have completes := compareWith_of_eq h1 h2
    exact ⟨congrArg Host.Outcome.next (completes _ .gt s), congrArg Host.Outcome.next (completes _ .lt s),
      congrArg Host.Outcome.next (completes _ .gte s), congrArg Host.Outcome.next (completes _ .lte s)⟩
  case raises =>
    have raises := compareWith_of_le h
    exact ⟨congrArg Host.Outcome.next (raises _ .gt s), congrArg Host.Outcome.next (raises _ .lt s),
      congrArg Host.Outcome.next (raises _ .gte s), congrArg Host.Outcome.next (raises _ .lte s)⟩
  case bytes =>
    exact ⟨decodeUndoesEncode (.gt ra rb) rest rfl, decodeUndoesEncode (.lt ra rb) rest rfl,
      decodeUndoesEncode (.gte ra rb) rest rfl, decodeUndoesEncode (.lte ra rb) rest rfl⟩
end

section
/-! PROOFS. The family of 47_cond_jumps.md: the effects of JMPE and JNEQ at either value of `equal_flag`, their faults
and their bytes. -/

namespace Sys2Proof.Machine

section
variable {taken : Bool} {rt : Byte} {r : RegIdx} {s : State}

/-! ## What JMPE and JNEQ share, by whether the jump is taken -/

/-- Taken, it is JMP: an absolute jump to the register's value. -/
theorem condJump_of_taken (ht : taken = true) (t : Tag) (rt : Byte) (s : State) :
    condJump taken t rt s = withReg rt s fun i => withJumpOperand i s fun v => s.complete v :=
  congrArg (withReg rt s) (funext fun _ => if_pos ht)

/-- Taken with a target that is not negative. -/
theorem condJump_of_taken_of_nonneg (ht : taken = true) (h : rt.toNat = r.val) (hv : 0 ≤ (s.reg r).toInt) (t : Tag) :
    condJump taken t rt s = s.complete (s.reg r).toInt.toNat :=
  (condJump_of_taken ht t rt s).trans (withReg_withJumpOperand_of_nonneg h hv _)

/-- Taken with a negative target. -/
theorem condJump_of_taken_of_neg (ht : taken = true) (h : rt.toNat = r.val) (hv : (s.reg r).toInt < 0) (t : Tag) :
    condJump taken t rt s = s.raise .negativeJumpOperand :=
  (condJump_of_taken ht t rt s).trans (withReg_withJumpOperand_of_neg h hv _)

/-- Not taken: no premise on the register's value, which is not examined. -/
theorem condJump_of_not_taken (ht : taken = false) (h : rt.toNat = r.val) (s : State) (t : Tag) :
    condJump taken t rt s = s.complete (s.pn t) :=
  (withReg_of_eq h s _).trans (if_neg (ne_true_of_eq_false ht))

/-- A field that names no register faults, taken or not. -/
theorem condJump_of_le (h : 32 ≤ rt.toNat) (taken : Bool) (s : State) (t : Tag) :
    condJump taken t rt s = s.raise .registerIndexOutOfRange :=
  withReg_of_le h s _

end

end Sys2Proof.Machine

open Sys2Proof Sys2Proof.Machine

/-- Settles O40: JMPE is `condJump` taken at the flag itself. The register exists or not, the jump is taken or not, the
target of a jump that is taken is negative or not, the two bytes are all there or not. -/
theorem jmpeJumpsWhenTheFlagIsSet : Obligations.JmpeJumpsWhenTheFlagIsSet :=
  ⟨fun _ _ _ h hset hv => congrArg Host.Outcome.next (condJump_of_taken_of_nonneg hset h hv .jmpe),
    fun _ _ s h hclear => congrArg Host.Outcome.next (condJump_of_not_taken hclear h s .jmpe),
    fun _ _ _ h hset hv => congrArg Host.Outcome.next (condJump_of_taken_of_neg hset h hv .jmpe),
    fun _ s h => congrArg Host.Outcome.next (condJump_of_le h _ s .jmpe),
    fun rt rest => decodeUndoesEncode (.jmpe rt) rest rfl,
    truncatesAt_opcodeByte .jmpe⟩

/-- Settles O41: the same cases at the opposite polarity, `condJump` taken at the flag's negation. -/
theorem jneqJumpsWhenTheFlagIsClear : Obligations.JneqJumpsWhenTheFlagIsClear :=
  ⟨fun _ _ _ h hclear hv =>
      congrArg Host.Outcome.next (condJump_of_taken_of_nonneg (congrArg not hclear) h hv .jneq),
    fun _ _ s h hset => congrArg Host.Outcome.next (condJump_of_not_taken (congrArg not hset) h s .jneq),
    fun _ _ _ h hclear hv =>
      congrArg Host.Outcome.next (condJump_of_taken_of_neg (congrArg not hclear) h hv .jneq),
    fun _ s h => congrArg Host.Outcome.next (condJump_of_le h _ s .jneq),
    fun rt rest => decodeUndoesEncode (.jneq rt) rest rfl,
    truncatesAt_opcodeByte .jneq⟩
end

section
/-! PROOFS. The families of 60_exceptions.md and 70_reset_and_hazards.md: which outcome an instruction and a step report
(`Instr.outcomeIn`), that a fault changes nothing else, that a halted machine stays as it is, the launch sequence; and the
two circuit forms of the decoder. -/

namespace Sys2Proof

/-! ## The outcome of an instruction, by its conditions in order -/

/-- The rows of 60_exceptions.md R199 that look at the values of registers, for an instruction whose register fields all
name one. -/
def Instr.outcomeOfValues (i : Instr) (s : Machine.State) : Machine.Outcome :=
  if i.tag = .div ∧ s.valueOf (i.regFields.getD 1 0) = 0 then .divisionByZero
  else if Machine.jumpTaken s.equalFlag i.tag = true ∧ s.valueOf (i.regFields.getD 0 0) < 0 then .negativeJumpOperand
  else if i.tag = .jmpb ∧ (s.pc.toNat + 2 : Int) < s.valueOf (i.regFields.getD 0 0) then .programCounterUnderflow
  else .continues

/-- The rows of 60_exceptions.md R199 that an instruction can report once it is decoded. -/
def Instr.outcomeIn (i : Instr) (s : Machine.State) : Machine.Outcome :=
  if i.tag = .hlt then .halted
  else if i.tag = .igl then .illegalOpcode
  else if i.regsInRange = false then .registerIndexOutOfRange
  else i.outcomeOfValues s

theorem Instr.regsInRange_eq_false_iff (i : Instr) : i.regsInRange = false ↔ ∃ f ∈ i.regFields, 32 ≤ f.toNat := by
  simp [Instr.regsInRange]

/-- HLT and an illegal byte have no register field. -/
theorem Instr.named_of_mem_regFields {i : Instr} {f : Byte} (h : f ∈ i.regFields) : i.tag ≠ .hlt ∧ i.tag ≠ .igl := by
  cases i <;> simp_all [Instr.regFields, Instr.tag]

theorem regFieldCount_le_oplen (t : Tag) : Machine.regFieldCount t ≤ oplen t := by
  cases t <;> decide

/-- The register fields of an instruction are the first of its operand bytes (30_encoding.md R61). -/
theorem regFields_instrOf_getD (t : Tag) (b0 : Byte) (ops : List Byte) :
    (instrOf t b0 (ops.getD 0 0) (ops.getD 1 0) (ops.getD 2 0)).regFields =
      (List.range (Machine.regFieldCount t)).map fun k => ops.getD k 0 := by
  cases t <;> rfl

/-- A jump through the register that `rt` names, with the flag `e` that a conditional one asks for. -/
def Instr.IsTakenJump (e : Bool) (rt : Byte) (i : Instr) : Prop :=
  i = .jmp rt ∨ i = .jmpf rt ∨ i = .jmpb rt ∨ (i = .jmpe rt ∧ e = true) ∨ (i = .jneq rt ∧ e = false)

theorem Instr.isTakenJump_iff {e : Bool} {rt : Byte} {i : Instr} :
    i.IsTakenJump e rt ↔ Machine.jumpTaken e i.tag = true ∧ i.regFields = [rt] := by
  cases i <;> simp [Instr.IsTakenJump, Instr.tag, Machine.jumpTaken, Instr.regFields, and_comm]

theorem Instr.exists_isTakenJump {e : Bool} {i : Instr} (h : Machine.jumpTaken e i.tag = true) :
    ∃ rt, i.IsTakenJump e rt := by
  cases i <;> simp_all [Instr.IsTakenJump, Instr.tag, Machine.jumpTaken]

theorem Instr.eq_div_of_tag {i : Instr} (h : i.tag = .div) : ∃ rs1 rs2 rd, i = .div rs1 rs2 rd := by
  cases i <;> simp_all [Instr.tag]

theorem Instr.eq_jmpb_of_tag {i : Instr} (h : i.tag = .jmpb) : ∃ rt, i = .jmpb rt := by
  cases i <;> simp_all [Instr.tag]

/-! ## The circuit forms of the decoder -/

theorem decoderRom_length : decoderRom.length = 256 := by
  rw [decoderRom, List.length_append, List.length_map, List.length_range, List.length_replicate]

/-- A word of the ROM: its own address up to 16, and 17 from there on (40_decoder.md R84). -/
theorem decoderRom_getElem? {n : Nat} (h : n < 256) : decoderRom[n]? = some (BitVec.ofNat 5 (min n 17)) := by
  have hlen : ((List.range 17).map (BitVec.ofNat 5)).length = 17 := by rw [List.length_map, List.length_range]
  obtain hn | hn := Nat.lt_or_ge n 17
  · rw [decoderRom, List.getElem?_append_left (hlen.symm ▸ hn), List.getElem?_map, List.getElem?_range hn,
      Option.map_some, Nat.min_eq_left hn.le]
  · rw [decoderRom, List.getElem?_append_right (hlen.symm ▸ hn), hlen, List.getElem?_replicate, if_pos (by omega),
      Nat.min_eq_right hn]

/-- The gates' illegal signal: one of the three high bits is set, or bit 4 with one of the four low bits
(40_decoder.md R85). -/
theorem gates_illegal_iff (b : Byte) :
    (decide (b.extractLsb' 5 3 ≠ 0#3) || (b.getLsbD 4 && decide (b.extractLsb' 0 4 ≠ 0#4))) = true ↔
      17 ≤ b.toNat := by
  have := b.isLt
  simp only [ne_eq, BitVec.toNat_eq, BitVec.extractLsb'_toNat, BitVec.getLsbD, Nat.testBit_eq_decide_div_mod_eq,
    Nat.shiftRight_eq_div_pow, BitVec.toNat_ofNat, Bool.or_eq_true, Bool.and_eq_true, decide_eq_true_eq]
  omega

/-- The gates pass the low bits of a byte below 17 and answer 17 for the others. -/
theorem toNat_decoderGates (b : Byte) : (decoderGates b).toNat = min b.toNat 17 := by
  simp only [decoderGates, gates_illegal_iff]
  split_ifs with h
  · rw [Nat.min_eq_right h]
    rfl
  · rw [BitVec.extractLsb'_toNat, Nat.shiftRight_zero]
    omega

end Sys2Proof

namespace Sys2Proof.Machine

section
variable {s t : State} {i : Instr}

/-- A bad register index comes before every condition on values, and HLT and IGL have no index. -/
theorem outcomeIn_of_le (h : ∃ f ∈ i.regFields, 32 ≤ f.toNat) (s : State) :
    i.outcomeIn s = .registerIndexOutOfRange := by
  obtain ⟨f, hf, -⟩ := id h
  obtain ⟨hhlt, higl⟩ := Instr.named_of_mem_regFields hf
  rw [Instr.outcomeIn, if_neg hhlt, if_neg higl, if_pos (i.regsInRange_eq_false_iff.mpr h)]

/-- With every register there, the values decide. -/
theorem outcomeIn_of_lt {f : Byte} (hf : f ∈ i.regFields) (h : ∀ f ∈ i.regFields, f.toNat < 32) (s : State) :
    i.outcomeIn s = i.outcomeOfValues s := by
  obtain ⟨hhlt, higl⟩ := Instr.named_of_mem_regFields hf
  have hrange : ¬i.regsInRange = false := by simpa [i.regsInRange_eq_false_iff] using h
  rw [Instr.outcomeIn, if_neg hhlt, if_neg higl, if_neg hrange]

/-! ## What the operand forms report -/

/-- One register operand: the instruction reports its index, or what it does with the register. -/
theorem withReg_outcome {b : Byte} {k : RegIdx → State} (hf : i.regFields = [b])
    (h : ∀ j : RegIdx, b.toNat = j.val → (k j).outcome = i.outcomeOfValues s) :
    (withReg b s k).outcome = i.outcomeIn s := by
  obtain ⟨j, hj, hk⟩ | ⟨hb, hk⟩ := withReg_cases b s k
  · rw [hk, h j hj, outcomeIn_of_lt (f := b) (by simp [hf]) (by simp [hf, hj])]
  · rw [hk, State.raise_outcome, outcomeIn_of_le (by simpa [hf] using hb)]

/-- Two register operands. No instruction that has two looks at a value before it completes. -/
theorem withReg2_outcome {b1 b2 : Byte} {k : RegIdx → RegIdx → State} (hf : i.regFields = [b1, b2])
    (h : ∀ j1 j2 : RegIdx, (k j1 j2).outcome = i.outcomeOfValues s) :
    (withReg2 b1 b2 s k).outcome = i.outcomeIn s := by
  obtain ⟨j1, j2, h1, h2, hk⟩ | ⟨hb, hk⟩ := withReg2_cases b1 b2 s k
  · rw [hk, h, outcomeIn_of_lt (f := b1) (by simp [hf]) (by simp [hf, h1, h2])]
  · rw [hk, State.raise_outcome, outcomeIn_of_le (by simpa [hf] using hb)]

/-- Three register operands, of which DIV looks at the second register's value. -/
theorem withReg3_outcome {b1 b2 b3 : Byte} {k : RegIdx → RegIdx → RegIdx → State} (hf : i.regFields = [b1, b2, b3])
    (h : ∀ j1 j2 j3 : RegIdx, b2.toNat = j2.val → (k j1 j2 j3).outcome = i.outcomeOfValues s) :
    (withReg3 b1 b2 b3 s k).outcome = i.outcomeIn s := by
  obtain ⟨j1, j2, j3, h1, h2, h3, hk⟩ | ⟨hb, hk⟩ := withReg3_cases b1 b2 b3 s k
  · rw [hk, h j1 j2 j3 h2, outcomeIn_of_lt (f := b1) (by simp [hf]) (by simp [hf, h1, h2, h3])]
  · rw [hk, State.raise_outcome, outcomeIn_of_le (by simpa [hf] using hb)]

/-- The operand of a jump that is taken. -/
theorem withJumpOperand_outcome (j : RegIdx) (s : State) (k : Nat → State) :
    (withJumpOperand j s k).outcome =
      if (s.reg j).toInt < 0 then .negativeJumpOperand else (k (s.reg j).toInt.toNat).outcome :=
  apply_ite State.outcome _ _ _

/-! ## What an instruction reports -/

/-- A jump with one register field that is not JMPB. -/
theorem outcomeOfValues_jump {rt : Byte} {j : RegIdx} (hf : i.regFields = [rt]) (hj : rt.toNat = j.val)
    (hdiv : i.tag ≠ .div) (hjmpb : i.tag ≠ .jmpb) (s : State) :
    i.outcomeOfValues s =
      if jumpTaken s.equalFlag i.tag = true ∧ (s.reg j).toInt < 0 then .negativeJumpOperand else .continues := by
  simp [Instr.outcomeOfValues, hf, hjmpb, hdiv, State.valueOf_of_eq hj]

/-- DIV reports a zero divisor. -/
theorem execDiv_outcome {rs1 rs2 rd : Byte} (h : exec (.div rs1 rs2 rd) s = .next t) :
    t.outcome = (Instr.div rs1 rs2 rd).outcomeIn s := by
  obtain rfl := Host.Outcome.next.inj h
  refine withReg3_outcome rfl fun _ j _ hj => ?_
  simp [Instr.outcomeOfValues, Instr.tag, Instr.regFields, State.valueOf_of_eq hj, jumpTaken, apply_ite State.outcome]

/-- JMPB reports a negative distance, then one that is too great. -/
theorem execJmpb_outcome {rt : Byte} (h : exec (.jmpb rt) s = .next t) :
    t.outcome = (Instr.jmpb rt).outcomeIn s := by
  obtain rfl := Host.Outcome.next.inj h
  refine withReg_outcome rfl fun j hj => ?_
  have hpn : s.pn .jmpb < (s.reg j).toInt.toNat ↔ (s.pc.toNat + 2 : Int) < (s.reg j).toInt := Int.lt_toNat
  simp [withJumpOperand_outcome, Instr.outcomeOfValues, Instr.tag, Instr.regFields, State.valueOf_of_eq hj, jumpTaken,
    hpn, apply_ite State.outcome]

/-- JMP and JMPF report a negative operand and otherwise complete. -/
theorem jump_outcome {rt : Byte} {target : Nat → Nat} (hf : i.regFields = [rt]) (hdiv : i.tag ≠ .div)
    (hjmpb : i.tag ≠ .jmpb) (ht : jumpTaken s.equalFlag i.tag = true) :
    (withReg rt s fun j => withJumpOperand j s fun v => s.complete (target v)).outcome = i.outcomeIn s :=
  withReg_outcome hf fun j hj => by simp [withJumpOperand_outcome, outcomeOfValues_jump hf hj hdiv hjmpb, ht]

/-- JMPE and JNEQ do so when they are taken, and complete otherwise. -/
theorem condJump_outcome {rt : Byte} (hf : i.regFields = [rt]) (hdiv : i.tag ≠ .div) (hjmpb : i.tag ≠ .jmpb) :
    (condJump (jumpTaken s.equalFlag i.tag) i.tag rt s).outcome = i.outcomeIn s := by
  cases ht : jumpTaken s.equalFlag i.tag with
  | true => rw [condJump_of_taken rfl, jump_outcome hf hdiv hjmpb ht]
  | false => exact withReg_outcome hf fun j hj => by simp [outcomeOfValues_jump hf hj hdiv hjmpb, ht]

/-- Every instruction reports the first of its conditions that holds. -/
theorem exec_outcome (h : exec i s = .next t) : t.outcome = i.outcomeIn s := by
  cases i with
  | load rd imm => exact Host.Outcome.next.inj h ▸ withReg_outcome (i := .load rd imm) rfl fun _ _ => rfl
  | add rs1 rs2 rd => exact Host.Outcome.next.inj h ▸ withReg3_outcome (i := .add rs1 rs2 rd) rfl fun _ _ _ _ => rfl
  | sub rs1 rs2 rd => exact Host.Outcome.next.inj h ▸ withReg3_outcome (i := .sub rs1 rs2 rd) rfl fun _ _ _ _ => rfl
  | mul rs1 rs2 rd => exact Host.Outcome.next.inj h ▸ withReg3_outcome (i := .mul rs1 rs2 rd) rfl fun _ _ _ _ => rfl
  | div rs1 rs2 rd => exact execDiv_outcome h
  | hlt => exact Host.Outcome.next.inj h ▸ rfl
  | igl byte => exact Host.Outcome.next.inj h ▸ rfl
  | jmp rt => exact Host.Outcome.next.inj h ▸ jump_outcome (i := .jmp rt) rfl nofun nofun rfl
  | jmpf rt => exact Host.Outcome.next.inj h ▸ jump_outcome (i := .jmpf rt) rfl nofun nofun rfl
  | jmpb rt => exact execJmpb_outcome h
  | eq ra rb pad => exact Host.Outcome.next.inj h ▸ withReg2_outcome (i := .eq ra rb pad) rfl fun _ _ => rfl
  | neq ra rb pad => exact Host.Outcome.next.inj h ▸ withReg2_outcome (i := .neq ra rb pad) rfl fun _ _ => rfl
  | gt ra rb => exact Host.Outcome.next.inj h ▸ withReg2_outcome (i := .gt ra rb) rfl fun _ _ => rfl
  | lt ra rb => exact Host.Outcome.next.inj h ▸ withReg2_outcome (i := .lt ra rb) rfl fun _ _ => rfl
  | gte ra rb => exact Host.Outcome.next.inj h ▸ withReg2_outcome (i := .gte ra rb) rfl fun _ _ => rfl
  | lte ra rb => exact Host.Outcome.next.inj h ▸ withReg2_outcome (i := .lte ra rb) rfl fun _ _ => rfl
  | jmpe rt => exact Host.Outcome.next.inj h ▸ condJump_outcome (i := .jmpe rt) rfl nofun nofun
  | jneq rt => exact Host.Outcome.next.inj h ▸ condJump_outcome (i := .jneq rt) rfl nofun nofun

/-! ## The faults of an instruction -/

/-- A decoded instruction lacks no operand byte. -/
theorem exec_outcome_ne_truncated (h : exec i s = .next t) : t.outcome ≠ .truncatedInstruction := by
  rw [exec_outcome h, Instr.outcomeIn, Instr.outcomeOfValues]
  split_ifs <;> simp

/-- An instruction that reports a fault has raised it (60_exceptions.md R200). -/
theorem Executes.eq_raise_of_isFault (h : Executes s i t) (hf : t.outcome.isFault = true) : t = s.raise t.outcome := by
  cases h with
  | faults => rfl
  | _ => cases hf

theorem raises_of_outcome {f : Outcome} (h : exec i s = .next t) (hf : f.isFault = true) (ho : t.outcome = f) :
    Raises i s f := by
  subst ho
  exact h.trans (congrArg Host.Outcome.next ((exec_executes h).eq_raise_of_isFault hf))

/-- When an instruction reports `RegisterIndexOutOfRange`. -/
theorem outcomeIn_eq_registerIndexOutOfRange_iff :
    i.outcomeIn s = .registerIndexOutOfRange ↔ ∃ f ∈ i.regFields, 32 ≤ f.toNat := by
  refine ⟨fun h => i.regsInRange_eq_false_iff.mp ?_, fun h => outcomeIn_of_le h s⟩
  by_contra hrange
  rw [Instr.outcomeIn, Instr.outcomeOfValues] at h
  split_ifs at h

/-- When it reports `DivisionByZero`. -/
theorem outcomeIn_eq_divisionByZero_iff :
    i.outcomeIn s = .divisionByZero ↔ ∃ (rs1 rs2 rd : Byte) (a b d : RegIdx), i = .div rs1 rs2 rd ∧
      rs1.toNat = a.val ∧ rs2.toNat = b.val ∧ rd.toNat = d.val ∧ s.reg b = 0 := by
  constructor
  · intro h
    obtain ⟨hrange, htag, hv⟩ : i.regsInRange = true ∧ i.tag = .div ∧ s.valueOf (i.regFields.getD 1 0) = 0 := by
      rw [Instr.outcomeIn, Instr.outcomeOfValues] at h
      split_ifs at h with _ _ hr hd
      exact ⟨eq_true_of_ne_false hr, hd⟩
    obtain ⟨rs1, rs2, rd, rfl⟩ := Instr.eq_div_of_tag htag
    obtain ⟨h1, h2, h3⟩ : rs1.toNat < 32 ∧ rs2.toNat < 32 ∧ rd.toNat < 32 := by
      simpa [Instr.regsInRange, Instr.regFields] using hrange
    have hb : (s.reg ⟨rs2.toNat, h2⟩).toInt = 0 := (State.valueOf_of_eq rfl s).symm.trans hv
    exact ⟨rs1, rs2, rd, ⟨_, h1⟩, ⟨_, h2⟩, ⟨_, h3⟩, rfl, rfl, rfl, rfl, BitVec.eq_of_toInt_eq hb⟩
  · rintro ⟨rs1, rs2, rd, a, b, d, rfl, h1, h2, h3, hb⟩
    exact (exec_outcome (exec_div_of_eq_zero h1 h2 h3 (congrArg BitVec.toInt hb))).symm

/-- When it reports `NegativeJumpOperand`. -/
theorem outcomeIn_eq_negativeJumpOperand_iff :
    i.outcomeIn s = .negativeJumpOperand ↔ ∃ (rt : Byte) (r : RegIdx), rt.toNat = r.val ∧ (s.reg r).toInt < 0 ∧
      i.IsTakenJump s.equalFlag rt := by
  constructor
  · intro h
    obtain ⟨hrange, htaken, hv⟩ : i.regsInRange = true ∧ jumpTaken s.equalFlag i.tag = true ∧
        s.valueOf (i.regFields.getD 0 0) < 0 := by
      rw [Instr.outcomeIn, Instr.outcomeOfValues] at h
      split_ifs at h with _ _ hr _ hj
      exact ⟨eq_true_of_ne_false hr, hj⟩
    obtain ⟨rt, hjump⟩ := Instr.exists_isTakenJump htaken
    obtain ⟨-, hf⟩ := Instr.isTakenJump_iff.mp hjump
    have hlt : rt.toNat < 32 := by simpa [Instr.regsInRange, hf] using hrange
    have hval := State.valueOf_of_eq (b := rt) (j := ⟨_, hlt⟩) rfl s
    exact ⟨rt, ⟨_, hlt⟩, rfl, by simpa [hf, hval] using hv, hjump⟩
  · rintro ⟨rt, r, hr, hv, hjump⟩
    obtain ⟨htaken, hf⟩ := Instr.isTakenJump_iff.mp hjump
    have hdiv : i.tag ≠ .div := fun hd => by simp [hd, jumpTaken] at htaken
    rw [outcomeIn_of_lt (f := rt) (by simp [hf]) (by simp [hf, hr])]
    simp [Instr.outcomeOfValues, hdiv, htaken, hf, State.valueOf_of_eq hr, hv]

/-- When it reports `ProgramCounterUnderflow`. -/
theorem outcomeIn_eq_programCounterUnderflow_iff :
    i.outcomeIn s = .programCounterUnderflow ↔ ∃ (rt : Byte) (r : RegIdx), i = .jmpb rt ∧ rt.toNat = r.val ∧
      (s.pc.toNat : Int) + 2 < (s.reg r).toInt := by
  constructor
  · intro h
    obtain ⟨hrange, htag, hv⟩ : i.regsInRange = true ∧ i.tag = .jmpb ∧
        (s.pc.toNat + 2 : Int) < s.valueOf (i.regFields.getD 0 0) := by
      rw [Instr.outcomeIn, Instr.outcomeOfValues] at h
      split_ifs at h with _ _ hr _ _ hu
      exact ⟨eq_true_of_ne_false hr, hu⟩
    obtain ⟨rt, rfl⟩ := Instr.eq_jmpb_of_tag htag
    have hlt : rt.toNat < 32 := by simpa [Instr.regsInRange, Instr.regFields] using hrange
    exact ⟨rt, ⟨_, hlt⟩, rfl, rfl, hv.trans_eq (State.valueOf_of_eq rfl s)⟩
  · rintro ⟨rt, r, rfl, hr, hv⟩
    exact (exec_outcome (exec_jmpb_of_lt hr hv)).symm

/-! ## The outcome of a step -/

/-- The register fields of the instruction decoded at `pc` are the bytes after its opcode byte. -/
theorem regFields_of_decode {rest : List Byte} (hlt : s.pc.toNat < s.progLen)
    (h : decode s.bytesAtPc = .ok (i, rest)) :
    i.regFields = (List.range (regFieldCount i.tag)).map fun k => s.instrByte (k + 1) := by
  rw [bytesAtPc_eq s hlt] at h
  obtain ⟨rfl, hlen⟩ := decode_cons_ok h
  rw [regFields_instrOf_getD, tag_instrOf]
  refine List.map_congr_left fun k hk => ?_
  have hcount := regFieldCount_le_oplen (decodeTag (s.prog.read s.pc.toNat))
  rw [List.getD_eq_getElem _ _ (by have := List.mem_range.mp hk; omega)]
  simp [State.instrByte, Nat.add_assoc, Nat.add_comm 1 k]

/-- Where an instruction is complete, the table read off the bytes at `pc` is the one read off the instruction. -/
theorem outcomeByPriority_of_decode {rest : List Byte} (hr : s.runState = .running) (hlt : s.pc.toNat < s.progLen)
    (hle : s.pn (decodeTag (s.prog.read s.pc.toNat)) ≤ s.progLen) (h : decode s.bytesAtPc = .ok (i, rest)) :
    outcomeByPriority s = i.outcomeIn s := by
  obtain ⟨htag, hfirst⟩ := decode_bytesAtPc_ok hlt h
  have hfields := regFields_of_decode hlt h
  have hcomplete : ¬s.progLen < s.pc.toNat + 1 + oplen i.tag := htag ▸ not_lt.mpr hle
  have hindex : (∃ k < regFieldCount i.tag, 32 ≤ (s.instrByte (k + 1)).toNat) ↔ i.regsInRange = false := by
    simp [Instr.regsInRange_eq_false_iff, hfields]
  have hdivisor (hd : i.tag = .div) : s.instrByte 2 = i.regFields.getD 1 0 := by rw [hfields, hd]; rfl
  have hoperand (hj : jumpTaken s.equalFlag i.tag = true) : s.instrByte 1 = i.regFields.getD 0 0 := by
    obtain ⟨rt, hjump⟩ := Instr.exists_isTakenJump hj
    obtain ⟨-, hf⟩ := Instr.isTakenJump_iff.mp hjump
    rw [hf, ← hfirst rt (by rw [hf]; rfl)]
    rfl
  have hzero : (i.tag = .div ∧ s.valueOf (s.instrByte 2) = 0) ↔
      (i.tag = .div ∧ s.valueOf (i.regFields.getD 1 0) = 0) :=
    and_congr_right fun hd => by rw [hdivisor hd]
  have hneg : (jumpTaken s.equalFlag i.tag = true ∧ s.valueOf (s.instrByte 1) < 0) ↔
      (jumpTaken s.equalFlag i.tag = true ∧ s.valueOf (i.regFields.getD 0 0) < 0) :=
    and_congr_right fun hj => by rw [hoperand hj]
  have hunder : (i.tag = .jmpb ∧ (s.pc.toNat + 2 : Int) < s.valueOf (s.instrByte 1)) ↔
      (i.tag = .jmpb ∧ (s.pc.toNat + 2 : Int) < s.valueOf (i.regFields.getD 0 0)) :=
    and_congr_right fun hb => by rw [hoperand (by rw [hb]; rfl)]
  rw [outcomeByPriority, if_neg (by simp [hr]), if_neg (not_le.mpr hlt), ← htag, if_neg hcomplete]
  simp only [hindex, hzero, hneg, hunder, Instr.outcomeIn, Instr.outcomeOfValues]

/-- Where an operand byte is missing, the tag is that of an instruction with operands, and the table says so first. -/
theorem outcomeByPriority_of_truncated (hr : s.runState = .running) (hlt : s.pc.toNat < s.progLen)
    (hl : s.progLen < s.pn (decodeTag (s.prog.read s.pc.toNat))) : outcomeByPriority s = .truncatedInstruction := by
  have hpos : 0 < oplen (decodeTag (s.instrByte 0)) := by
    rw [State.pn] at hl
    exact (by omega : 0 < oplen (decodeTag (s.prog.read s.pc.toNat)))
  have hhlt : decodeTag (s.instrByte 0) ≠ .hlt := fun he => by rw [he] at hpos; cases hpos
  have higl : decodeTag (s.instrByte 0) ≠ .igl := fun he => by rw [he] at hpos; cases hpos
  rw [outcomeByPriority, if_neg (by simp [hr]), if_neg (not_le.mpr hlt), if_neg hhlt, if_neg higl]
  exact if_pos hl

/-- What a step of a halted machine reports, by the table. -/
theorem outcomeByPriority_of_halted (hr : s.runState = .halted) : outcomeByPriority s = s.outcome :=
  if_pos hr

/-- What a step at the end of the program reports, by the table. -/
theorem outcomeByPriority_of_end (hr : s.runState = .running) (h : s.progLen ≤ s.pc.toNat) :
    outcomeByPriority s = .endOfProgram := by
  rw [outcomeByPriority, if_neg (by simp [hr]), if_pos h]

end

/-! ## The end of a run -/

/-- A run, cut where its first part ends. -/
theorem core_run_add {k : Nat} {s t : State} (h : core.run k s = .next t) (m : Nat) :
    core.run (k + m) s = core.run m t := by
  induction k generalizing s with
  | zero => rw [(core_run_zero s t).mp h, Nat.zero_add]
  | succ k ih =>
    obtain ⟨u, hu⟩ := exists_step_eq_next s
    rw [core_run_succ hu] at h
    rw [Nat.succ_add, core_run_succ hu, ih h]

/-- A halted machine runs in place (41_executor_cycle.md R102). -/
theorem core_run_of_halted {s : State} (hr : s.runState = .halted) (m : Nat) : core.run m s = .next s := by
  induction m with
  | zero => rfl
  | succ m ih => rw [core_run_succ (step_of_halted hr), ih]

/-! ## The launch sequence -/

theorem resetEvent_reg (r : Word) (e : Bool) (s : State) (j : RegIdx) : (resetEvent r e s).reg j = 0 := by
  simp [resetEvent, State.reset, State.reg]

/-- A register write in a launch state leaves a launch state. -/
theorem hostWriteReg_isLaunch {s : State} (h : s.isLaunch) (idx : BitVec 5) (v : Word) :
    (hostWriteReg idx v s).isLaunch := by
  obtain ⟨hpc, hrun, hout, hlegal, hw, hdiag⟩ := h
  rw [hostWriteReg_of_open hw]
  exact ⟨hpc, hrun, hout, hlegal, hw, hdiag⟩

/-- What the host reads after it has written a register in the launch window. -/
theorem hostReadReg_hostWriteReg {s : State} (hw : s.launchWindow = true) (idx other : BitVec 5) (v : Word) :
    hostReadReg other (hostWriteReg idx v s) = if idx = other then v else hostReadReg other s := by
  rw [hostWriteReg_of_open hw, hostReadReg, State.setReg_reg]
  exact if_congr BitVec.toFin_inj rfl rfl

end Sys2Proof.Machine

open Sys2Proof Sys2Proof.Machine

/-- Settles O12: the step looks for the operand bytes before it runs the instruction, which itself never reports this
fault. -/
theorem truncatedExactlyWhenAnOperandByteIsMissing : Obligations.TruncatedExactlyWhenAnOperandByteIsMissing := by
  intro s t hr h
  obtain ⟨hh, -⟩ | ⟨-, hp, hk⟩ | ⟨-, hlt, hl, hk⟩ | ⟨-, -, hle, i, rest, -, -, hk⟩ := step_cases s
  · cases hr.symm.trans hh
  · obtain rfl := Host.Outcome.next.inj (hk.symm.trans h)
    exact ⟨nofun, fun ⟨hlt, _⟩ => absurd hlt (not_lt.mpr hp)⟩
  · obtain rfl := Host.Outcome.next.inj (hk.symm.trans h)
    exact ⟨fun _ => ⟨hlt, by rw [State.pn] at hl; omega, hl⟩, fun _ => rfl⟩
  · exact ⟨fun ho => absurd ho (exec_outcome_ne_truncated (hk.symm.trans h)),
      fun ⟨_, _, hl⟩ => absurd hl (not_lt.mpr hle)⟩

/-- Settles O13, by what the step finds at `pc`; a decoded instruction reports the outcome `Instr.outcomeIn`. -/
theorem stepReportsTheOutcomeOfHighestPriority : Obligations.StepReportsTheOutcomeOfHighestPriority := by
  intro s t h
  obtain ⟨hr, hk⟩ | ⟨hr, hp, hk⟩ | ⟨hr, hlt, hl, hk⟩ | ⟨hr, hlt, hle, i, rest, hd, -, hk⟩ := step_cases s
  · obtain rfl := Host.Outcome.next.inj (hk.symm.trans h)
    exact (outcomeByPriority_of_halted hr).symm
  · obtain rfl := Host.Outcome.next.inj (hk.symm.trans h)
    exact (outcomeByPriority_of_end hr hp).symm
  · obtain rfl := Host.Outcome.next.inj (hk.symm.trans h)
    exact (outcomeByPriority_of_truncated hr hlt hl).symm
  · have hout : t.outcome = i.outcomeIn s.closeLaunchWindow := exec_outcome (hk.symm.trans h)
    exact hout.trans (outcomeByPriority_of_decode hr hlt hle hd).symm

/-- Settles O15: `TruncatedInstruction` is raised by the fetch, every other fault by the instruction. -/
theorem faultsArePrecise : Obligations.FaultsArePrecise := by
  intro s t hr h hf
  obtain ⟨hh, -⟩ | ⟨-, -, hk⟩ | ⟨-, -, -, hk⟩ | ⟨-, -, -, i, rest, -, -, hk⟩ := step_cases s
  · cases hr.symm.trans hh
  · obtain rfl := Host.Outcome.next.inj (hk.symm.trans h)
    cases hf
  · obtain rfl := Host.Outcome.next.inj (hk.symm.trans h)
    rfl
  · exact (exec_executes (hk.symm.trans h)).eq_raise_of_isFault hf

/-- Settles O23: the further steps run from the halted state. -/
theorem theFinalStateIsStable : Obligations.TheFinalStateIsStable :=
  fun _ m _ _ h hr => (core_run_add h m).trans (core_run_of_halted hr m)

/-- Settles O25, by the place of the fault among the instruction's conditions. -/
theorem registerIndexFaultExactly : Obligations.RegisterIndexFaultExactly :=
  fun _ _ _ h => ⟨exec_outcome h ▸ outcomeIn_eq_registerIndexOutOfRange_iff, raises_of_outcome h rfl⟩

/-- Settles O26, likewise. -/
theorem divisionByZeroFaultExactly : Obligations.DivisionByZeroFaultExactly :=
  fun _ _ _ h => ⟨exec_outcome h ▸ outcomeIn_eq_divisionByZero_iff, raises_of_outcome h rfl⟩

/-- Settles O27, likewise. -/
theorem programCounterUnderflowFaultExactly : Obligations.ProgramCounterUnderflowFaultExactly :=
  fun _ _ _ h => ⟨exec_outcome h ▸ outcomeIn_eq_programCounterUnderflow_iff, raises_of_outcome h rfl⟩

/-- Settles O28, likewise. -/
theorem negativeJumpOperandFaultExactly : Obligations.NegativeJumpOperandFaultExactly :=
  fun _ _ _ h => ⟨exec_outcome h ▸ outcomeIn_eq_negativeJumpOperand_iff, raises_of_outcome h rfl⟩

/-- Settles O5: reset opens the window with every register 0, the load makes the program legal, and the register write
is the only other change. -/
theorem launchSequenceLoadsTheProgram : Obligations.LaunchSequenceLoadsTheProgram := by
  refine fun r e s bytes => ⟨fun hlen => ?loads, fun hlen => hostLoadProgram_of_tooLong rfl hlen⟩
  case loads =>
    refine ⟨_, hostLoadProgram_of_open rfl hlen, rfl, fun _ hk => read_writeBytes_nil hk, rfl, rfl, fun idx v =>
      ⟨hostWriteReg_isLaunch ⟨rfl, rfl, rfl, programLegal_of_load _ hlen, rfl, rfl⟩ idx v, ?_, fun other hne => ?_⟩⟩
    · rw [hostReadReg_hostWriteReg rfl, if_pos rfl]
    · rw [hostReadReg_hostWriteReg rfl, if_neg hne.symm]
      exact resetEvent_reg r e s _

/-- Settles O7: the fetch reads below `L` alone, and every instruction has a meaning. -/
theorem everyStepAnswersANextState : Obligations.EveryStepAnswersANextState :=
  exists_step_eq_next

/-- Settles O2: the reset state is a reset of itself, and its empty buffer is legal. -/
theorem resetStateMeetsTheInvariant : Obligations.ResetStateMeetsTheInvariant := by
  have hlaunch : State.reset.isLaunch := resetEvent_isLaunch (s := State.reset) _ _ ⟨Nat.zero_le _, rfl, rfl⟩
  exact ⟨hlaunch, State.inv_of_isLaunch hlaunch, rfl, rfl⟩

/-- Settles O43: on a byte, each form answers the lesser of the byte and 17, which is the code of its tag. -/
theorem romAndGatesComputeTheDecoder : Obligations.RomAndGatesComputeTheDecoder := by
  obtain ⟨-, -, hcode⟩ := decoderBlockFunctionAndCode
  refine ⟨decoderRom_length, fun b => ⟨?rom, ?gates⟩⟩
  case rom =>
    rw [decoderRom_getElem? b.isLt, ← hcode, BitVec.ofNat_toNat, BitVec.setWidth_eq]
  case gates =>
    exact BitVec.eq_of_toNat_eq ((toNat_decoderGates b).trans (hcode b).symm)
end
